-- ==== Sys2Proof/Word.lean ====
section
/-! DEFINITION. The value types of the block: every value is an unsigned bit vector of a stated width
(`00_scope.md` R7), with the widths of `00_scope.md` R6. -/

namespace Sys2Proof

/-- CHAR_BITS, ATTR_BITS and CW of R6: a character code, a colour attribute, a console register, a byte of `Mem`. -/
abbrev Byte := BitVec 8

/-- COLOR_BITS of R6: one colour number. -/
abbrev Color := BitVec 4

/-- CELL_BITS of R6: one character cell, and the response value of R91. -/
abbrev CellValue := BitVec 16

/-- XLEN of R6: a byte address of `Mem`, and a byte count. -/
abbrev Addr := BitVec 32

/-- The command word `w[99:0]` of `30_encoding.md` R85. -/
abbrev CommandWord := BitVec 100

end Sys2Proof
end

