-- ==== Sys2Proof/Syntax.lean ====
section
/-! DEFINITION. The eleven commands (`30_encoding.md` R86, R87), one constructor per row of the opcode table.
An operand has exactly the width of its field, so that no term carries an operand out of range. -/

namespace Sys2Proof

/-- A command, with the operands of R86 in the order of the source's arguments. -/
inductive Instr where
  /-- `copy(dst, src, n)`: byte copy, low address to high. -/
  | copy (dst src n : Addr)
  /-- `move(dst, src, n)`: byte move with overlap detection. -/
  | move (dst src n : Addr)
  /-- The word-optimised variant of `copy`. -/
  | wcopy (dst src n : Addr)
  /-- `encode_attribute(fg, bg)`. -/
  | enca (fg bg : Color)
  /-- `encode_cell(ch, attr)`. -/
  | encc (ch attr : Byte)
  /-- `initialize()`. -/
  | init
  /-- `clear()`. -/
  | clear
  /-- `set_foreground(color)`. -/
  | setfg (color : Color)
  /-- `set_background(color)`. -/
  | setbg (color : Color)
  /-- `goto(x, y)`: column first, then row. -/
  | goto (xv yv : Byte)
  /-- `write_char(ch)`. -/
  | putc (ch : Byte)
  deriving DecidableEq, Repr

end Sys2Proof
end

