-- ==== Sys2Proof/WellFormed.lean ====
section
/-! DEFINITION. What makes a command word well formed (`30_encoding.md` R85, R86, R88): its opcode names a
command, and every operand bit that the command does not name is 0. The operands of an `Instr` have exactly
the widths of their fields, so the check is about the word's fields and no `Instr` can fail it
(log entry 21). -/

namespace Sys2Proof

/-- The four fields of format F (R85). -/
structure Fields where
  op : BitVec 4
  a : BitVec 32
  b : BitVec 32
  c : BitVec 32
  deriving DecidableEq, Repr

/-- `v[31:k] == 0`: the bits of an operand word above the field `v[k-1:0]` are 0. -/
def reservedZero (k : Nat) (v : BitVec 32) : Bool := v >>> k == 0#32

/-- How many low bits of `a`, `b` and `c` each command names (R86); none for a reserved opcode (R87). -/
def operandWidths (op : BitVec 4) : Option (Nat × Nat × Nat) :=
  match op.toNat with
  | 0x1 => some (32, 32, 32)
  | 0x2 => some (32, 32, 32)
  | 0x3 => some (32, 32, 32)
  | 0x4 => some (4, 4, 0)
  | 0x5 => some (8, 8, 0)
  | 0x6 => some (0, 0, 0)
  | 0x7 => some (0, 0, 0)
  | 0x8 => some (4, 0, 0)
  | 0x9 => some (4, 0, 0)
  | 0xA => some (8, 8, 0)
  | 0xB => some (8, 0, 0)
  | _ => none

/-- R88: a word is legal when its opcode names a command and its reserved operand bits are 0. -/
def Fields.legal (f : Fields) : Bool :=
  match operandWidths f.op with
  | none => false
  | some (ka, kb, kc) => reservedZero ka f.a && reservedZero kb f.b && reservedZero kc f.c

end Sys2Proof
end

