-- ==== Sys2Proof/Decode.lean ====
section
/-! DEFINITION. The decode function and its inverse (`30_encoding.md` R85 to R89), and the opcode map of R87 as
match and mask. -/

namespace Sys2Proof

/-- Why a word names no command (R88). -/
inductive Illegal where
  /-- `op` is 0x0 or 0xC to 0xF. -/
  | reservedOpcode (op : BitVec 4)
  /-- `op` names a command and a reserved operand bit is 1. -/
  | reservedOperandBits (op : BitVec 4)
  deriving DecidableEq, Repr

/-- What a word decodes to: a command, or a named reason why it is illegal. -/
inductive Decoded where
  | legal (i : Instr)
  | illegal (why : Illegal)
  deriving DecidableEq, Repr

/-- The command of a legal word. -/
def Decoded.instr? : Decoded → Option Instr
  | .legal i => some i
  | .illegal _ => none

/-- The fields of a word (R85): `op = w[99:96]`, `a = w[95:64]`, `b = w[63:32]`, `c = w[31:0]`. -/
def Fields.ofWord (w : CommandWord) : Fields where
  op := w.extractLsb' 96 4
  a := w.extractLsb' 64 32
  b := w.extractLsb' 32 32
  c := w.extractLsb' 0 32

/-- The word with the given fields (R85): `op` in the high bits, `c` in the low ones. -/
def Fields.toWord (f : Fields) : CommandWord := f.op ++ f.a ++ f.b ++ f.c

/-- A command when its reserved operand bits are 0, the fault's reason otherwise (R88). -/
def guardReserved (op : BitVec 4) (zero : Bool) (i : Instr) : Decoded :=
  if zero then .legal i else .illegal (.reservedOperandBits op)

/-- R89 over the fields, case by case. -/
def decodeFields (f : Fields) : Decoded :=
  match f.op.toNat with
  | 0x1 => .legal (.copy f.a f.b f.c)
  | 0x2 => .legal (.move f.a f.b f.c)
  | 0x3 => .legal (.wcopy f.a f.b f.c)
  | 0x4 => guardReserved f.op (reservedZero 4 f.a && reservedZero 4 f.b && f.c == 0#32)
      (.enca (f.a.setWidth 4) (f.b.setWidth 4))
  | 0x5 => guardReserved f.op (reservedZero 8 f.a && reservedZero 8 f.b && f.c == 0#32)
      (.encc (f.a.setWidth 8) (f.b.setWidth 8))
  | 0x6 => guardReserved f.op (f.a == 0#32 && f.b == 0#32 && f.c == 0#32) .init
  | 0x7 => guardReserved f.op (f.a == 0#32 && f.b == 0#32 && f.c == 0#32) .clear
  | 0x8 => guardReserved f.op (reservedZero 4 f.a && f.b == 0#32 && f.c == 0#32)
      (.setfg (f.a.setWidth 4))
  | 0x9 => guardReserved f.op (reservedZero 4 f.a && f.b == 0#32 && f.c == 0#32)
      (.setbg (f.a.setWidth 4))
  | 0xA => guardReserved f.op (reservedZero 8 f.a && reservedZero 8 f.b && f.c == 0#32)
      (.goto (f.a.setWidth 8) (f.b.setWidth 8))
  | 0xB => guardReserved f.op (reservedZero 8 f.a && f.b == 0#32 && f.c == 0#32)
      (.putc (f.a.setWidth 8))
  | _ => .illegal (.reservedOpcode f.op)

/-- R89: the decode function, total on every 100-bit word. -/
def decode (w : CommandWord) : Decoded := decodeFields (Fields.ofWord w)

/-- The opcode of each command (R87). -/
def Instr.opcode : Instr → BitVec 4
  | .copy _ _ _ => 0x1#4
  | .move _ _ _ => 0x2#4
  | .wcopy _ _ _ => 0x3#4
  | .enca _ _ => 0x4#4
  | .encc _ _ => 0x5#4
  | .init => 0x6#4
  | .clear => 0x7#4
  | .setfg _ => 0x8#4
  | .setbg _ => 0x9#4
  | .goto _ _ => 0xA#4
  | .putc _ => 0xB#4

/-- The fields of each command (R86, R89): every operand in the low bits of its field, zero elsewhere. -/
def encodeFields (i : Instr) : Fields :=
  match i with
  | .copy dst src n => ⟨i.opcode, dst, src, n⟩
  | .move dst src n => ⟨i.opcode, dst, src, n⟩
  | .wcopy dst src n => ⟨i.opcode, dst, src, n⟩
  | .enca fg bg => ⟨i.opcode, fg.setWidth 32, bg.setWidth 32, 0#32⟩
  | .encc ch attr => ⟨i.opcode, ch.setWidth 32, attr.setWidth 32, 0#32⟩
  | .init => ⟨i.opcode, 0#32, 0#32, 0#32⟩
  | .clear => ⟨i.opcode, 0#32, 0#32, 0#32⟩
  | .setfg color => ⟨i.opcode, color.setWidth 32, 0#32, 0#32⟩
  | .setbg color => ⟨i.opcode, color.setWidth 32, 0#32, 0#32⟩
  | .goto xv yv => ⟨i.opcode, xv.setWidth 32, yv.setWidth 32, 0#32⟩
  | .putc ch => ⟨i.opcode, ch.setWidth 32, 0#32, 0#32⟩

/-- R89: the word of a command, the inverse of `decode` on the eleven commands. -/
def encode (i : Instr) : CommandWord := (encodeFields i).toWord

/-- One row of the opcode map of R87. -/
structure OpcodeRow where
  mnemonic : String
  pattern : CommandWord
  mask : CommandWord
  deriving DecidableEq, Repr

/-- R87: a word selects the row with `(w & mask) == match`. -/
def OpcodeRow.selects (r : OpcodeRow) (w : CommandWord) : Bool := (w &&& r.mask) == r.pattern

/-- The opcode map of R87 as match and mask. -/
def opcodeTable : List OpcodeRow := [
  ⟨"COPY", 0x1000000000000000000000000#100, 0xF000000000000000000000000#100⟩,
  ⟨"MOVE", 0x2000000000000000000000000#100, 0xF000000000000000000000000#100⟩,
  ⟨"WCOPY", 0x3000000000000000000000000#100, 0xF000000000000000000000000#100⟩,
  ⟨"ENCA", 0x4000000000000000000000000#100, 0xFFFFFFFF0FFFFFFF0FFFFFFFF#100⟩,
  ⟨"ENCC", 0x5000000000000000000000000#100, 0xFFFFFFF00FFFFFF00FFFFFFFF#100⟩,
  ⟨"INIT", 0x6000000000000000000000000#100, 0xFFFFFFFFFFFFFFFFFFFFFFFFF#100⟩,
  ⟨"CLEAR", 0x7000000000000000000000000#100, 0xFFFFFFFFFFFFFFFFFFFFFFFFF#100⟩,
  ⟨"SETFG", 0x8000000000000000000000000#100, 0xFFFFFFFF0FFFFFFFFFFFFFFFF#100⟩,
  ⟨"SETBG", 0x9000000000000000000000000#100, 0xFFFFFFFF0FFFFFFFFFFFFFFFF#100⟩,
  ⟨"GOTO", 0xA000000000000000000000000#100, 0xFFFFFFF00FFFFFF00FFFFFFFF#100⟩,
  ⟨"PUTC", 0xB000000000000000000000000#100, 0xFFFFFFF00FFFFFFFFFFFFFFFF#100⟩]

/-- The mnemonic of each command (R87). -/
def Instr.mnemonic : Instr → String
  | .copy _ _ _ => "COPY"
  | .move _ _ _ => "MOVE"
  | .wcopy _ _ _ => "WCOPY"
  | .enca _ _ => "ENCA"
  | .encc _ _ => "ENCC"
  | .init => "INIT"
  | .clear => "CLEAR"
  | .setfg _ => "SETFG"
  | .setbg _ => "SETBG"
  | .goto _ _ => "GOTO"
  | .putc _ => "PUTC"

/-- The command of the word with the bits `w`, bit 0 the least significant (R85). A word has exactly 100 bits,
so a number of 2^100 or more is no word, whatever whole number of bytes the row is counted as
(log entry 20). -/
def decodeTableWord (_nbits w : Nat) : Option Instr :=
  if w < 2 ^ 100 then (decode (BitVec.ofNat 100 w)).instr? else none

end Sys2Proof
end

