-- ==== Sys2Proof/Config.lean ====
section
/-! DEFINITION. The fixed constants of the block and its parameters (`00_scope.md` R6). A parameter is an
argument of the model: the state carries one `Config`, which no step writes, so that a statement over every
state is a statement over every value of the parameters (log entry 1). -/

namespace Sys2Proof

/-- Columns of the grid (R6). -/
abbrev WIDTH : Nat := 80
/-- Rows of the grid (R6). -/
abbrev HEIGHT : Nat := 25
/-- Cells of the grid (R6). -/
abbrev NCELLS : Nat := 2000
/-- Bytes a cell takes (R6). -/
abbrev CELL_BYTES : Nat := 2
/-- Bytes the grid takes (R6). -/
abbrev GRID_BYTES : Nat := 4000
/-- Bytes a row takes (R6). -/
abbrev ROW_BYTES : Nat := 160
/-- The 4-byte chunk of the word-optimised copy (R6, D18). -/
abbrev WORD_BYTES : Nat := 4
/-- The attribute INIT loads (R6, `43_console_state.md` R151). -/
abbrev DEFAULT_ATTR : Byte := 0x07#8

/-- An interval of byte addresses, taken modulo 2^32, that the platform does not back with storage. -/
structure Hole where
  base : Addr
  size : Nat
  deriving DecidableEq, Repr

/-- The parameters of R6. `holes` is the complement of MemMap: every address outside them is backed
(log entry 2). The constraints of R6 are `Config.valid` (Machine/Operands.lean). -/
structure Config where
  /-- GRID_BASE: the byte address of cell 0. -/
  gridBase : Addr
  /-- SPACE: the character clear and scroll write. -/
  space : Byte
  /-- The five control codes (`30_encoding.md` R83). -/
  bel : Byte
  bs : Byte
  lf : Byte
  ff : Byte
  cr : Byte
  /-- The addresses outside MemMap. -/
  holes : List Hole
  deriving DecidableEq, Repr

/-- The default values R6 states. PRESUMED (K1, K2, K3 of `93_implementation_defined.md`): the numbers come
from general knowledge, not from the source (log entry 17). R6 gives MemMap no default: no hole is a
DESIGN CHOICE (log entry 2). -/
def Config.default : Config where
  gridBase := 0x000B8000#32
  space := 0x20#8
  bel := 0x07#8
  bs := 0x08#8
  lf := 0x0A#8
  ff := 0x0C#8
  cr := 0x0D#8
  holes := []

end Sys2Proof
end

