-- ==== Sys2Proof/Machine/State.lean ====
section
/-! DEFINITION. The state of the block (`10_state.md` R20): the console registers, the status bits, PHASE and
`Mem`; and the model's own records of its ports: the commands the host has on offer (R90), the completion
event of the latest command (R91), the accesses it made (`20_memory.md` R63) and the phases it passed
through (R30). -/

namespace Sys2Proof.Machine

/-- The phases of the command sequencer (`10_state.md` R30). -/
inductive Phase where
  | idle | mover | encode | clearing | place | advance | scrollMove | scrollFill | adjust
  deriving DecidableEq, Repr

/-- The direction of an access on the memory master port (R63). -/
inductive Direction where
  | read | write
  deriving DecidableEq, Repr

/-- The width of an access (R63): 1, 2 or 4 bytes. -/
inductive Width where
  | byte | half | word
  deriving DecidableEq, Repr

/-- One access on the memory master port (R63). `data` is the data written or the data read, in the low bits
with zeros above (R64, log entry 10). -/
structure Access where
  dir : Direction
  addr : Addr
  width : Width
  data : BitVec 32
  deriving DecidableEq, Repr

/-- `Mem` (R50) as (address, byte) pairs in the canonical form `Memory.wf` (Machine/Ops.lean). -/
abbrev Memory := List Host.Cell

/-- The memory master port (R63): the memory behind it, and the accesses made on it by the latest command,
newest first (log entry 10). -/
structure MemPort where
  mem : Memory
  log : List Access
  deriving DecidableEq, Repr

/-- The completion event of R91: `rsp_ok` and `rsp_data`. -/
structure Response where
  ok : Bool
  data : CellValue
  deriving DecidableEq, Repr

/-- Everything `10_state.md` R20 gives the block, then what its ports show, then its parameters. -/
structure State where
  /-- `x[COL]`, the cursor column (R22). -/
  col : Byte
  /-- `x[ROW]`, the cursor row (R23). -/
  row : Byte
  /-- `x[ATTR]`, the current colour attribute (R24). -/
  attr : Byte
  /-- INIT has run since reset (R28). -/
  inited : Bool
  /-- The sticky fault latch (R28, `60_exceptions.md` R201). -/
  fault : Bool
  /-- The cause of the fault, 0 when there is none (R28, R202). -/
  fcode : BitVec 2
  /-- The phase of the sequencer, IDLE between commands (R30). -/
  phase : Phase
  /-- `Mem` (R31, R50) behind the memory master port, and the latest command's accesses (R63). -/
  port : MemPort
  /-- The phases the latest command entered, newest first (R30, log entry 10). -/
  phases : List Phase
  /-- The command words the host has on offer, next first (R90, log entry 5). -/
  cmds : List CommandWord
  /-- The completion event of the latest step, none when it took no command (R91, log entry 10). -/
  rsp : Option Response
  /-- The parameters (`00_scope.md` R6), which no step writes (log entry 1). -/
  cfg : Config
  deriving DecidableEq, Repr

/-- Why the block takes no step. A fault of the SPEC (IllegalCommand, NotInitialised, CursorOutOfRange) is not
one of these: it latches FAULT and FCODE in a next state (`State.raise`, Machine/Ops.lean). -/
inductive Fault where
  /-- Raised by `step` alone, when FAULT = 1: the block is stuck until reset (`00_scope.md` R10, R201).
  Safe: the spec gives no step there (log entry 7). -/
  | blockFaulted
  /-- Raised by COPY, MOVE and WCOPY when an access would leave MemMap (`20_memory.md` R52, U6): the command
  has no step. Safe: a real platform may go on (log entry 11). -/
  | unbackedAccess
  deriving DecidableEq, Repr

/-- Why a command is not taken. -/
inductive Refusal where
  /-- Raised by an arm of `exec` for an instruction that has no meaning; no arm raises it. Safe. -/
  | notModelled (mnemonic : String)
  /-- Raised by `step` alone, when PHASE is not IDLE: `cmd_ready` = 0 and the command is not accepted (R90,
  U15). Safe: no run reaches such a state, since a command is one step (log entry 9). -/
  | blockBusy
  deriving DecidableEq, Repr

/-- The outcome of a command. -/
abbrev Result := Host.Outcome State Fault Refusal

/-- The block right after reset (`10_state.md` R35, `70_reset_and_hazards.md` R220): INITED, FAULT and FCODE 0,
PHASE IDLE. DESIGN CHOICE: the three registers, which the spec leaves unspecified, hold 0 (log entry 4);
`Mem`, which reset does not touch, lists nothing (log entry 3); no command is on offer (log entry 5); the
parameters have their defaults (log entries 2 and 17). -/
def State.reset : State where
  col := 0#8
  row := 0#8
  attr := 0#8
  inited := false
  fault := false
  fcode := 0#2
  phase := .idle
  port := ⟨[], []⟩
  phases := []
  cmds := []
  rsp := none
  cfg := Config.default

end Sys2Proof.Machine
end

