-- ==== Sys2Proof/Machine/Flags.lean ====
section
/-! DEFINITION. The status fields (`10_state.md` R28, R29), the fault causes and their codes
(`60_exceptions.md` R202), and the wires a host sees: the status port (R33) and the handshake of the command
port (`30_encoding.md` R90). The block has no arithmetic flag (R28). -/

namespace Sys2Proof.Machine

/-- The fault causes of R202. -/
inductive Cause where
  | illegalCommand | notInitialised | cursorOutOfRange
  deriving DecidableEq, Repr

/-- FCODE of each cause (R202). -/
def Cause.code : Cause → BitVec 2
  | .illegalCommand => 1#2
  | .notInitialised => 2#2
  | .cursorOutOfRange => 3#2

/-- BUSY (R29): PHASE is not IDLE. -/
def State.busy (s : State) : Bool := decide (s.phase ≠ .idle)

/-- STATUS (R29): bit 0 BUSY, bit 1 INITED, bit 2 FAULT, bits 4:3 FCODE, bits 7:5 hardwired 0. -/
def State.status (s : State) : Byte :=
  0#3 ++ s.fcode ++ BitVec.ofBool s.fault ++ BitVec.ofBool s.inited ++ BitVec.ofBool s.busy

/-- The status port (R33). -/
structure StatusPort where
  stCol : Byte
  stRow : Byte
  stAttr : Byte
  stStatus : Byte
  deriving DecidableEq, Repr

/-- The wires of the status port (R33). What the three register outputs show before INIT, and while BUSY, is
unspecified (U8, U9): no statement rests on it (log entries 4 and 15). -/
def State.statusPort (s : State) : StatusPort := ⟨s.col, s.row, s.attr, s.status⟩

/-- `cmd_ready` (R90): PHASE = IDLE and FAULT = 0. -/
def State.cmdReady (s : State) : Bool := !s.busy && !s.fault

/-- `cmd_valid` (R90): the host has a command on offer. -/
def State.cmdValid (s : State) : Bool := !s.cmds.isEmpty

end Sys2Proof.Machine
end

