-- ==== Sys2Proof/Machine/Operands.lean ====
section
/-! DEFINITION. The forms of the data a command works on: the colour attribute and the character cell
(`41_cell_encoder.md`, `30_encoding.md` R80, R81), the control codes (R83), the framebuffer addresses
(`42_address_generator.md`), and the parameters' constraints (`00_scope.md` R6) with MemMap
(`20_memory.md` R52). -/

namespace Sys2Proof.Machine

/-- R130: `{ bg, fg }`. -/
def encodeAttribute (fg bg : Color) : Byte := bg ++ fg

/-- R81: the foreground field, attribute bits 3:0. -/
def attrFg (a : Byte) : Color := a.extractLsb' 0 4

/-- R81: the background field, attribute bits 7:4. -/
def attrBg (a : Byte) : Color := a.extractLsb' 4 4

/-- R131: `{ attr, ch }`. -/
def encodeCell (ch attr : Byte) : CellValue := attr ++ ch

/-- R80: the character field CH, cell bits 7:0. -/
def cellChar (v : CellValue) : Byte := v.extractLsb' 0 8

/-- R80: the attribute field AT, cell bits 15:8. -/
def cellAttr (v : CellValue) : Byte := v.extractLsb' 8 8

end Sys2Proof.Machine

namespace Sys2Proof

/-- R83: `ch` is one of the five control codes. -/
def Config.isControl (g : Config) (ch : Byte) : Bool :=
  ch == g.bel || ch == g.bs || ch == g.ff || ch == g.lf || ch == g.cr

/-- `a` lies in the hole. -/
def Hole.contains (h : Hole) (a : Addr) : Bool := decide ((a - h.base).toNat < h.size)

/-- `a` is in MemMap (R52): no hole contains it. -/
def Config.mapped (g : Config) (a : Addr) : Bool := !g.holes.any (fun h => h.contains a)

/-- The hole meets the `n` bytes from `a`: it contains `a`, or its own base is one of the bytes. -/
def Hole.meets (h : Hole) (a : Addr) (n : Nat) : Bool :=
  decide (0 < n) && decide (0 < h.size) && (h.contains a || decide ((h.base - a).toNat < n))

/-- The platform backs the `n` bytes from `a`, addresses modulo 2^32 (R52, R58): each is in MemMap
(`Laws.backs_iff_mapped`). -/
def Config.backs (g : Config) (a : Addr) (n : Nat) : Bool := !g.holes.any (fun h => h.meets a n)

/-- The constraints R6 puts on the parameters: GRID_BASE even, the grid inside the address space and inside
MemMap, the control codes pairwise distinct, SPACE none of them. -/
def Config.valid (g : Config) : Bool :=
  g.gridBase.toNat % 2 == 0 && decide (g.gridBase.toNat + GRID_BYTES ≤ 2 ^ 32) &&
  decide ([g.bel, g.bs, g.lf, g.ff, g.cr].Nodup) && !g.isControl g.space &&
  g.backs g.gridBase GRID_BYTES

/-- R140: the row-major number of a cell. -/
def cellIndex (col row : Nat) : Nat := row * WIDTH + col

/-- The byte address of cell `i` (R51): GRID_BASE + 2i. -/
def Config.cellAddrOf (g : Config) (i : Nat) : Addr := g.gridBase + BitVec.ofNat 32 (CELL_BYTES * i)

/-- R141: the byte address of the cell at (column, row). -/
def Config.cellAddr (g : Config) (col row : Byte) : Addr := g.cellAddrOf (cellIndex col.toNat row.toNat)

/-- R143: the byte address at which a row starts. -/
def Config.rowAddr (g : Config) (row : Nat) : Addr := g.gridBase + BitVec.ofNat 32 (ROW_BYTES * row)

/-- The grid window of R51: `a` is one of the 4000 bytes from GRID_BASE. -/
def Config.inGrid (g : Config) (a : Addr) : Bool := decide ((a - g.gridBase).toNat < GRID_BYTES)

end Sys2Proof

namespace Sys2Proof.Machine

/-- The cursor is in range (`00_scope.md` R12): `x[COL] < WIDTH` and `x[ROW] < HEIGHT`. -/
def State.cursorInRange (s : State) : Bool := decide (s.col.toNat < WIDTH) && decide (s.row.toNat < HEIGHT)

/-- The cell clear and scroll write (`30_encoding.md` R84): SPACE with the current attribute. -/
def State.blank (s : State) : CellValue := encodeCell s.cfg.space s.attr

end Sys2Proof.Machine
end

