-- ==== Sys2Proof/Machine/Ops.lean ====
section
/-! DEFINITION. The named operations every command is written in: memory and the memory master port
(`00_scope.md` R9, `20_memory.md`), the `for` loops of R9, entering a phase and completing (`10_state.md` R30,
`30_encoding.md` R91), raising a fault (`60_exceptions.md` R201), the reset input, which alone clears one
(R207, `70_reset_and_hazards.md` R220), and taking a command from the command port (R90). -/

namespace Sys2Proof.Machine

/-! ### Memory -/

/-- What a byte of `Mem` reads as that nothing has written. DESIGN CHOICE (log entry 3): reset does not touch
`Mem` (R35), which then holds whatever it held. -/
def Memory.unlisted : Byte := 0x00#8

/-- The byte at an address. -/
def Memory.read : Memory → Nat → Byte
  | [], _ => Memory.unlisted
  | (k, v) :: m, a => if k = a then v else Memory.read m a

/-- List a byte at its place in the order of addresses. -/
def Memory.put (a : Nat) (b : Byte) : Memory → Memory
  | [] => [(a, b)]
  | (k, v) :: m =>
    if k < a then (k, v) :: Memory.put a b m
    else if k = a then (a, b) :: m
    else (a, b) :: (k, v) :: m

/-- Set the byte at an address. A byte that an unlisted address reads as is not listed, so that equal memories
are equal lists. -/
def Memory.write (m : Memory) (a : Nat) (b : Byte) : Memory :=
  if b = Memory.unlisted then m.filter (fun c => c.1 ≠ a) else Memory.put a b m

/-- Every address is at least `lo`, addresses rise, lie in the address space (R50), and no byte is one that an
unlisted address reads as. -/
def Memory.wfFrom : Nat → Memory → Bool
  | _, [] => true
  | lo, (k, v) :: m =>
    decide (lo ≤ k) && decide (k < 2 ^ 32) && v != Memory.unlisted && Memory.wfFrom (k + 1) m

/-- The canonical form of `Mem`. -/
def Memory.wf (m : Memory) : Bool := Memory.wfFrom 0 m

/-- The bytes of an access (R63). -/
def Width.bytes : Width → Nat
  | .byte => 1
  | .half => 2
  | .word => 4

/-- `m_size` of an access (R63). -/
def Width.size : Width → BitVec 2
  | .byte => 0#2
  | .half => 1#2
  | .word => 2#2

/-- `MemRead` of R9 for `n` bytes: byte `k` of the value is the byte at `(a + k) mod 2^32`, little-endian
(R53). -/
def Memory.load (m : Memory) (a : Addr) : Nat → BitVec 32
  | 0 => 0#32
  | k + 1 =>
    Memory.load m a k ||| ((Memory.read m (a + BitVec.ofNat 32 k).toNat).setWidth 32 <<< (8 * k))

/-- `MemWrite` of R9 for `n` bytes: the byte at `(a + k) mod 2^32` takes byte `k` of the value. -/
def Memory.store (m : Memory) (a : Addr) (v : BitVec 32) : Nat → Memory
  | 0 => m
  | k + 1 =>
    Memory.write (Memory.store m a v k) (a + BitVec.ofNat 32 k).toNat (v.extractLsb' (8 * k) 8)

/-! ### The memory master port -/

/-- The byte behind the port at an address. -/
def MemPort.byte (p : MemPort) (a : Addr) : Byte := Memory.read p.mem a.toNat

/-- The value of `MemRead(a, width)`. -/
def MemPort.value (p : MemPort) (a : Addr) (w : Width) : BitVec 32 := Memory.load p.mem a w.bytes

/-- The port after `MemRead(a, width)`: one access; memory is unchanged (R57). -/
def MemPort.memRead (p : MemPort) (a : Addr) (w : Width) : MemPort :=
  { p with log := ⟨.read, a, w, p.value a w⟩ :: p.log }

/-- The port after `MemWrite(a, width, v)`: one access. -/
def MemPort.memWrite (p : MemPort) (a : Addr) (w : Width) (v : BitVec 32) : MemPort :=
  ⟨Memory.store p.mem a v w.bytes, ⟨.write, a, w, v⟩ :: p.log⟩

/-- What one access does to memory: a write stores its data, a read nothing (R57). -/
def Access.apply (m : Memory) (x : Access) : Memory :=
  match x.dir with
  | .read => m
  | .write => Memory.store m x.addr x.data x.width.bytes

/-- The memory after a run of accesses, oldest first. -/
def replay (xs : List Access) (m : Memory) : Memory := xs.foldl Access.apply m

/-- `t = MemRead(src, width); MemWrite(dst, width, t)`: the body of the mover's loops (R111 to R113). -/
def MemPort.transfer (p : MemPort) (dst src : Addr) (w : Width) : MemPort :=
  (p.memRead src w).memWrite dst w (p.value src w)

/-- One cell write (R54, R55): one access of 2 bytes. -/
def MemPort.writeCell (p : MemPort) (a : Addr) (v : CellValue) : MemPort :=
  p.memWrite a .half (v.setWidth 32)

/-- `for i = 0 to n-1: body` (R9). -/
def forUp (body : Nat → MemPort → MemPort) : Nat → MemPort → MemPort
  | 0, p => p
  | n + 1, p => body n (forUp body n p)

/-- `for i = n-1 downto 0: body` (R9). -/
def forDown (body : Nat → MemPort → MemPort) : Nat → MemPort → MemPort
  | 0, p => p
  | n + 1, p => forDown body n (body n p)

/-- The cell writes `for i = first to first+count-1: MemWrite(GRID_BASE + 2*i, 2, v)` of clear and scroll
(`43_console_state.md` R153, `44_console_driver.md` R173). -/
def MemPort.fillCells (p : MemPort) (g : Config) (v : CellValue) (first count : Nat) : MemPort :=
  forUp (fun j q => q.writeCell (g.cellAddrOf (first + j)) v) count p

/-! ### State -/

/-- The byte of `Mem` at an address, as a reader outside the block sees it. -/
def State.byte (s : State) (a : Addr) : Byte := s.port.byte a

/-- Cell `i` of the grid (R31), as the display controller reads it (`60_exceptions.md` R211). -/
def State.cell (s : State) (i : Nat) : CellValue :=
  (Memory.load s.port.mem (s.cfg.cellAddrOf i) CELL_BYTES).setWidth 16

/-- Apply the accesses of a piece of a command to the port. -/
def State.onPort (s : State) (f : MemPort → MemPort) : State := { s with port := f s.port }

/-- `x[COL] <- col; x[ROW] <- row` (R8). -/
def State.setCursor (s : State) (col row : Byte) : State := { s with col := col, row := row }

/-- `x[ATTR] <- attr` (R8). -/
def State.setAttr (s : State) (attr : Byte) : State := { s with attr := attr }

/-- `INITED <- 1` (`10_state.md` R28). -/
def State.setInited (s : State) : State := { s with inited := true }

/-- PHASE takes a new value during a command (R30). -/
def State.enter (s : State) (p : Phase) : State := { s with phase := p, phases := p :: s.phases }

/-- A command completes (R27, R91): PHASE returns to IDLE, `rsp_ok` = 1 and `rsp_data` is its response value. -/
def State.complete (s : State) (value : CellValue) : State :=
  { s with phase := .idle, rsp := some ⟨true, value⟩ }

/-- `raise <cause>` of R201: FAULT and FCODE are set, PHASE returns to IDLE, the completion event is
`rsp_ok` = 0 with `rsp_data` = 0, and nothing else changes. Nothing is saved and control goes nowhere
(R206). -/
def State.raise (s : State) (c : Cause) : State :=
  { s with fault := true, fcode := c.code, phase := .idle, rsp := some ⟨false, 0x0000#16⟩ }

/-- A command that faults: the fault latch is taken in a next state (log entry 8). -/
def takeFault (c : Cause) (s : State) : Result := .next (s.raise c)

/-- The second check of R150: every console command but INIT needs INITED = 1. -/
def requireInited (s : State) (run : Result) : Result :=
  if s.inited then run else takeFault .notInitialised s

/-- The reset input at idle (R220, R35): INITED, FAULT and FCODE 0, PHASE IDLE, `Mem` untouched. The three
registers become unspecified: their values are arguments, which nothing constrains (U8, log entry 13). The
host's commands and the parameters are not the block's. -/
def State.resetInput (s : State) (col row attr : Byte) : State :=
  { s with
    col := col, row := row, attr := attr, inited := false, fault := false, fcode := 0#2, phase := .idle,
    port := { s.port with log := [] }, phases := [], rsp := none }

/-- A step begins: the records of the step before are gone. -/
def State.beginStep (s : State) : State :=
  { s with port := { s.port with log := [] }, phases := [], rsp := none }

/-- The block accepts the command on offer (R90): the host goes on to the next one. -/
def State.accept (s : State) (rest : List CommandWord) : State := { s.beginStep with cmds := rest }

end Sys2Proof.Machine
end

