-- ==== Sys2Proof/Machine/Console.lean ====
section
/-! DEFINITION. The console state commands: INIT, CLEAR, SETFG, SETBG and GOTO (`43_console_state.md`). -/

namespace Sys2Proof.Machine

/-- R153: the clear procedure. -/
def State.clearGrid (s : State) : State :=
  (s.enter .clearing).onPort (fun p => p.fillCells s.cfg s.blank 0 NCELLS)

/-- R151: INIT. The grid reference is the parameter GRID_BASE: there is nothing to bind (`10_state.md` R25). -/
def execInit (s : State) : Result :=
  .next ((((s.setCursor 0#8 0#8).setAttr DEFAULT_ATTR).clearGrid.setInited).complete 0x0000#16)

/-- R152: CLEAR. -/
def execClear (s : State) : Result :=
  requireInited s (.next (s.clearGrid.complete 0x0000#16))

/-- R154: SETFG color. -/
def execSetfg (color : Color) (s : State) : Result :=
  requireInited s (.next ((s.setAttr (encodeAttribute color (attrBg s.attr))).complete 0x0000#16))

/-- R155: SETBG color. -/
def execSetbg (color : Color) (s : State) : Result :=
  requireInited s (.next ((s.setAttr (encodeAttribute (attrFg s.attr) color)).complete 0x0000#16))

/-- R156: GOTO x, y. The operands are stored as given. -/
def execGoto (xv yv : Byte) (s : State) : Result :=
  requireInited s (.next ((s.setCursor xv yv).complete 0x0000#16))

end Sys2Proof.Machine
end

