-- ==== Sys2Proof/Machine/Encoder.lean ====
section
/-! DEFINITION. The commands that expose the cell encoder: ENCA and ENCC (`41_cell_encoder.md`). -/

namespace Sys2Proof.Machine

/-- R133: ENCA fg, bg. -/
def execEnca (fg bg : Color) (s : State) : Result :=
  .next ((s.enter .encode).complete ((encodeAttribute fg bg).setWidth 16))

/-- R134: ENCC ch, attr. -/
def execEncc (ch attr : Byte) (s : State) : Result :=
  .next ((s.enter .encode).complete (encodeCell ch attr))

end Sys2Proof.Machine
end

