-- ==== Sys2Proof/Machine/Mover.lean ====
section
/-! DEFINITION. The bulk mover: COPY, MOVE and WCOPY (`40_bulk_mover.md`). -/

namespace Sys2Proof.Machine

/-- The loop of R111: bytes, low address to high. -/
def MemPort.copyUp (p : MemPort) (dst src : Addr) (n : Nat) : MemPort :=
  forUp (fun i q => q.transfer (dst + BitVec.ofNat 32 i) (src + BitVec.ofNat 32 i) .byte) n p

/-- The downward loop of R112: bytes, high address to low. -/
def MemPort.copyDown (p : MemPort) (dst src : Addr) (n : Nat) : MemPort :=
  forDown (fun i q => q.transfer (dst + BitVec.ofNat 32 i) (src + BitVec.ofNat 32 i) .byte) n p

/-- The overlap detection of R112: `dst` lies inside `[src, src+n)`, above `src`. -/
def overlapsAbove (dst src n : Addr) : Bool := dst - src != 0#32 && decide (dst - src < n)

/-- The accesses of R112. -/
def MemPort.move (p : MemPort) (dst src n : Addr) : MemPort :=
  if overlapsAbove dst src n then p.copyDown dst src n.toNat else p.copyUp dst src n.toNat

/-- The accesses of R113: `n div 4` words from the start, then `n mod 4` bytes. -/
def MemPort.copyWords (p : MemPort) (dst src : Addr) (n : Nat) : MemPort :=
  forUp
    (fun j q =>
      q.transfer (dst + BitVec.ofNat 32 (WORD_BYTES * (n / WORD_BYTES) + j))
        (src + BitVec.ofNat 32 (WORD_BYTES * (n / WORD_BYTES) + j)) .byte)
    (n % WORD_BYTES)
    (forUp
      (fun k q =>
        q.transfer (dst + BitVec.ofNat 32 (WORD_BYTES * k)) (src + BitVec.ofNat 32 (WORD_BYTES * k)) .word)
      (n / WORD_BYTES) p)

/-- The frame of a mover command (R110): its accesses in phase MOVER, then response 0. A command that would
touch an address outside MemMap has no step (R52, log entry 11). -/
def runMover (dst src n : Addr) (f : MemPort → MemPort) (s : State) : Result :=
  if s.cfg.backs src n.toNat && s.cfg.backs dst n.toNat then
    .next (((s.enter .mover).onPort f).complete 0x0000#16)
  else .fault .unbackedAccess

/-- R111: COPY dst, src, n. -/
def execCopy (dst src n : Addr) (s : State) : Result :=
  runMover dst src n (fun p => p.copyUp dst src n.toNat) s

/-- R112: MOVE dst, src, n. -/
def execMove (dst src n : Addr) (s : State) : Result :=
  runMover dst src n (fun p => p.move dst src n) s

/-- R113: WCOPY dst, src, n. -/
def execWcopy (dst src n : Addr) (s : State) : Result :=
  runMover dst src n (fun p => p.copyWords dst src n.toNat) s

end Sys2Proof.Machine
end

