-- ==== Sys2Proof/Machine/Putc.lean ====
section
/-! DEFINITION. PUTC and the line-wrap and scroll state machine (`44_console_driver.md`): the three steps in
the source's order, the generic advance before the control code's own adjustment (R179). -/

namespace Sys2Proof.Machine

/-- R171, step 1: the cell is written at the cursor, unless `ch` is a control code. -/
def State.placeChar (s : State) (ch : Byte) : State :=
  if s.cfg.isControl ch then s
  else (s.enter .place).onPort (fun p => p.writeCell (s.cfg.cellAddr s.col s.row) (encodeCell ch s.attr))

/-- R173, first part: rows 1 to 24 move up one row, with the accesses of MOVE (`40_bulk_mover.md` R116). -/
def State.scrollMove (s : State) : State :=
  (s.enter .scrollMove).onPort (fun p => p.move (s.cfg.rowAddr 0) (s.cfg.rowAddr 1) 3840#32)

/-- R173, second part: the last row is filled with spaces of the current attribute. -/
def State.scrollFill (s : State) : State :=
  (s.enter .scrollFill).onPort (fun p => p.fillCells s.cfg s.blank 1920 80)

/-- R173: the scroll procedure: move, fill, then the row is decremented. -/
def State.scroll (s : State) : State :=
  let filled := s.scrollMove.scrollFill
  filled.setCursor filled.col (filled.row - 1#8)

/-- R172, the line wrap of step 2: column 0 of the next row, and a scroll when that row is HEIGHT. -/
def State.wrapLine (s : State) : State :=
  let wrapped := s.setCursor 0#8 (s.row + 1#8)
  if wrapped.row = 25#8 then wrapped.scroll else wrapped

/-- R172, step 2: the generic advance, for every `ch`. -/
def State.advance (s : State) : State :=
  let moved := (s.enter .advance).setCursor (s.col + 1#8) s.row
  if moved.col = 80#8 then moved.wrapLine else moved

/-- R174: the backspace, bounded below by column 0. -/
def backspaceCol (col : Byte) : Byte := if 2#8 ≤ col then col - 2#8 else 0#8

/-- R174 to R178, step 3: the adjustment of a control code; nothing for BEL and for every other code. -/
def State.adjust (s : State) (ch : Byte) : State :=
  let t := s.enter .adjust
  if ch = t.cfg.bs then t.setCursor (backspaceCol t.col) t.row
  else if ch = t.cfg.lf then t.setCursor 0#8 (t.row + 1#8)
  else if ch = t.cfg.ff then t.clearGrid
  else if ch = t.cfg.cr then t.setCursor 0#8 t.row
  else t

/-- The third check of R170: the cursor must be in range, for every `ch`. -/
def requireCursor (s : State) (run : Result) : Result :=
  if s.cursorInRange then run else takeFault .cursorOutOfRange s

/-- R179: PUTC ch. -/
def execPutc (ch : Byte) (s : State) : Result :=
  requireInited s (requireCursor s (.next ((((s.placeChar ch).advance).adjust ch).complete 0x0000#16)))

end Sys2Proof.Machine
end

