-- ==== Sys2Proof/Machine/Dispatch.lean ====
section
/-! DEFINITION. The effect of an accepted command (`30_encoding.md` R87): one arm per command, each one call of
its meaning. -/

namespace Sys2Proof.Machine

def exec (i : Instr) (s : State) : Host.Outcome State Fault Refusal :=
  match i with
  | .copy dst src n => Sys2Proof.Machine.execCopy dst src n s
  | .move dst src n => Sys2Proof.Machine.execMove dst src n s
  | .wcopy dst src n => Sys2Proof.Machine.execWcopy dst src n s
  | .enca fg bg => Sys2Proof.Machine.execEnca fg bg s
  | .encc ch attr => Sys2Proof.Machine.execEncc ch attr s
  | .init => Sys2Proof.Machine.execInit s
  | .clear => Sys2Proof.Machine.execClear s
  | .setfg color => Sys2Proof.Machine.execSetfg color s
  | .setbg color => Sys2Proof.Machine.execSetbg color s
  | .goto xv yv => Sys2Proof.Machine.execGoto xv yv s
  | .putc ch => Sys2Proof.Machine.execPutc ch s

end Sys2Proof.Machine
end

