-- ==== Sys2Proof/Machine/Step.lean ====
section
/-! DEFINITION. One step of the block (`00_scope.md` R10): it takes the command word on offer and runs it to
completion, or latches `IllegalCommand` (`30_encoding.md` R88); there is no step when FAULT = 1. -/

namespace Sys2Proof.Machine

/-- What an accepted word does (R10, R88, R150 check 1). -/
def runWord (w : CommandWord) (s : State) : Host.Outcome State Fault Refusal :=
  match decode w with
  | .legal i => exec i s
  | .illegal _ => takeFault .illegalCommand s

/-- One step (R10, R90): nothing when FAULT = 1 (log entry 7), the command on offer when the block is idle,
and no change but that the last completion event is over when no command is on offer (log entry 6). -/
def step (s : State) : Host.Outcome State Fault Refusal :=
  if s.fault then .fault .blockFaulted
  else if s.busy then .refused .blockBusy
  else
    match s.cmds with
    | [] => .next s.beginStep
    | w :: rest => runWord w (s.accept rest)

/-- The state with the word of bits `w` next on offer, before the commands already there (log entry 5). -/
def State.withFetchWord (s : State) (_nbits w : Nat) : State :=
  { s with cmds := BitVec.ofNat 100 w :: s.cmds }

end Sys2Proof.Machine
end

