-- ==== Sys2Proof/Machine/Assembler.lean ====
section
/-! DEFINITION. The assembler syntax of `30_encoding.md` R92 and the pseudo-instruction PUTS of R93: from a
text to the commands it stands for. What R92 leaves open is log entry 19. -/

namespace Sys2Proof.Machine

/-- PUTS (R93, `44_console_driver.md` R183): one PUTC per byte, in order, and no terminator. -/
def puts (text : List Byte) : List Instr := text.map Instr.putc

/-- The colour names of `30_encoding.md` R82, in the order of their numbers. -/
def colorNames : List (List Char) :=
  ["BLACK".toList, "BLUE".toList, "GREEN".toList, "CYAN".toList, "RED".toList, "MAGENTA".toList,
   "BROWN".toList, "LIGHT_GREY".toList, "DARK_GREY".toList, "LIGHT_BLUE".toList, "LIGHT_GREEN".toList,
   "LIGHT_CYAN".toList, "LIGHT_RED".toList, "LIGHT_MAGENTA".toList, "LIGHT_BROWN".toList, "WHITE".toList]

/-- The number of a colour name, counting from `k`. -/
def colorNumber (name : List Char) : List (List Char) → Nat → Option Nat
  | [], _ => none
  | c :: cs, k => if c = name then some k else colorNumber name cs (k + 1)

/-- The value of a digit in a base up to sixteen. -/
def digitValue (base : Nat) (c : Char) : Option Nat :=
  let v :=
    if '0'.toNat ≤ c.toNat ∧ c.toNat ≤ '9'.toNat then c.toNat - '0'.toNat
    else if 'a'.toNat ≤ c.toNat ∧ c.toNat ≤ 'f'.toNat then c.toNat - 'a'.toNat + 10
    else if 'A'.toNat ≤ c.toNat ∧ c.toNat ≤ 'F'.toNat then c.toNat - 'A'.toNat + 10
    else base
  if v < base then some v else none

/-- The value of digits read after `acc`. -/
def digitsValue (base : Nat) : Nat → List Char → Option Nat
  | acc, [] => some acc
  | acc, c :: cs =>
    match digitValue base c with
    | some v => digitsValue base (base * acc + v) cs
    | none => none

/-- A number: decimal, or hexadecimal with `0x` (R92). -/
def numberValue : List Char → Option Nat
  | [] => none
  | ['0', 'x'] => none
  | '0' :: 'x' :: cs => digitsValue 16 0 cs
  | cs => digitsValue 10 0 cs

/-- A character a literal may hold: printable ASCII (R92). -/
def printable (c : Char) : Bool := decide (0x20 ≤ c.toNat) && decide (c.toNat ≤ 0x7E)

/-- The escapes of R92; the control codes are those of the parameters. -/
def escapeByte (g : Config) (c : Char) : Option Byte :=
  if c = 'a' then some g.bel
  else if c = 'b' then some g.bs
  else if c = 'n' then some g.lf
  else if c = 'f' then some g.ff
  else if c = 'r' then some g.cr
  else if c = '\\' then some 0x5C#8
  else if c = '\'' then some 0x27#8
  else none

/-- A token of a line: a mnemonic, number or name; a character literal; a string literal; a comma. -/
inductive Token where
  | word (cs : List Char)
  | literal (b : Byte)
  | text (bs : List Byte)
  | comma
  deriving DecidableEq, Repr

/-- Where the scan of a line stands. -/
inductive LexState where
  | gap
  | word (back : List Char)
  | charOpen
  | charEscape
  | charClose (b : Byte)
  | text (back : List Byte)
  | textEscape (back : List Byte)
  deriving DecidableEq, Repr

/-- A character of a mnemonic, a number or a name. -/
def wordChar (c : Char) : Bool := c.isAlphanum || c == '_'

/-- The double quote. -/
def doubleQuote : Char := Char.ofNat 34

/-- The scan at one character outside a literal: where it goes on, and the token it gives. A comment runs from
`;` to the end of the line, so nothing goes on there (R92). -/
def lexGap (c : Char) : Option (Option LexState × List Token) :=
  if c = ' ' ∨ c = '\t' ∨ c = '\r' then some (some .gap, [])
  else if c = ';' then some (none, [])
  else if c = ',' then some (some .gap, [.comma])
  else if c = '\'' then some (some .charOpen, [])
  else if c = doubleQuote then some (some (.text []), [])
  else if wordChar c then some (some (.word [c]), [])
  else none

/-- The scan at one character. -/
def lexStep (g : Config) : LexState → Char → Option (Option LexState × List Token)
  | .gap, c => lexGap c
  | .word back, c =>
    if wordChar c then some (some (.word (c :: back)), [])
    else (lexGap c).map (fun r => (r.1, .word back.reverse :: r.2))
  | .charOpen, c =>
    if c = '\\' then some (some .charEscape, [])
    else if printable c && c != '\'' then some (some (.charClose (BitVec.ofNat 8 c.toNat)), [])
    else none
  | .charEscape, c => (escapeByte g c).map (fun b => (some (.charClose b), []))
  | .charClose b, c => if c = '\'' then some (some .gap, [.literal b]) else none
  | .text back, c =>
    if c = '\\' then some (some (.textEscape back), [])
    else if c = doubleQuote then some (some .gap, [.text back.reverse])
    else if printable c then some (some (.text (BitVec.ofNat 8 c.toNat :: back)), [])
    else none
  | .textEscape back, c => (escapeByte g c).map (fun b => (some (.text (b :: back)), []))

/-- The tokens of a line; none when it holds something R92 does not give. -/
def tokens (g : Config) : LexState → List Char → Option (List Token)
  | .gap, [] => some []
  | .word back, [] => some [.word back.reverse]
  | .charOpen, [] => none
  | .charEscape, [] => none
  | .charClose _, [] => none
  | .text _, [] => none
  | .textEscape _, [] => none
  | st, c :: cs =>
    match lexStep g st c with
    | none => none
    | some (none, ts) => some ts
    | some (some st', ts) => (tokens g st' cs).map (fun rest => ts ++ rest)

/-- The operand of a colour field: a number or a name of R82. -/
def colorOperand : Token → Option Nat
  | .word cs =>
    match colorNumber cs colorNames 0 with
    | some k => some k
    | none => numberValue cs
  | .literal _ => none
  | .text _ => none
  | .comma => none

/-- The operand of a field that takes a number only. -/
def numberOperand : Token → Option Nat
  | .word cs => numberValue cs
  | .literal _ => none
  | .text _ => none
  | .comma => none

/-- The operand of a character field: a number or a character literal. -/
def charOperand : Token → Option Nat
  | .word cs => numberValue cs
  | .literal b => some b.toNat
  | .text _ => none
  | .comma => none

/-- An operand that does not fit its field is an assembler error, not an encoding (R92). -/
def fit (w : Nat) : Option Nat → Option (BitVec w)
  | some v => if v < 2 ^ w then some (BitVec.ofNat w v) else none
  | none => none

/-- Three addresses and counts. -/
def threeNumbers (f : Addr → Addr → Addr → Instr) (x y z : Token) : Option (List Instr) :=
  match fit 32 (numberOperand x), fit 32 (numberOperand y), fit 32 (numberOperand z) with
  | some a, some b, some c => some [f a b c]
  | _, _, _ => none

/-- Two operands. -/
def twoOperands {w : Nat} (f : BitVec w → BitVec w → Instr) (x y : Option Nat) : Option (List Instr) :=
  match fit w x, fit w y with
  | some a, some b => some [f a b]
  | _, _ => none

/-- One operand. -/
def oneOperand {w : Nat} (f : BitVec w → Instr) (x : Option Nat) : Option (List Instr) :=
  (fit w x).map (fun a => [f a])

/-- The commands of a mnemonic with no operand. -/
def noOperands (m : List Char) : Option (List Instr) :=
  if m = "INIT".toList then some [.init]
  else if m = "CLEAR".toList then some [.clear]
  else none

/-- The commands of a mnemonic with one operand; PUTS takes a string literal. -/
def withOne (m : List Char) (x : Token) : Option (List Instr) :=
  if m = "SETFG".toList then oneOperand .setfg (colorOperand x)
  else if m = "SETBG".toList then oneOperand .setbg (colorOperand x)
  else if m = "PUTC".toList then oneOperand .putc (charOperand x)
  else if m = "PUTS".toList then
    match x with
    | .text bs => some (puts bs)
    | .word _ => none
    | .literal _ => none
    | .comma => none
  else none

/-- The commands of a mnemonic with two operands, in the order of R86. -/
def withTwo (m : List Char) (x y : Token) : Option (List Instr) :=
  if m = "ENCA".toList then twoOperands .enca (colorOperand x) (colorOperand y)
  else if m = "ENCC".toList then twoOperands .encc (charOperand x) (numberOperand y)
  else if m = "GOTO".toList then twoOperands .goto (numberOperand x) (numberOperand y)
  else none

/-- The commands of a mnemonic with three operands, in the order of R86. -/
def withThree (m : List Char) (x y z : Token) : Option (List Instr) :=
  if m = "COPY".toList then threeNumbers .copy x y z
  else if m = "MOVE".toList then threeNumbers .move x y z
  else if m = "WCOPY".toList then threeNumbers .wcopy x y z
  else none

/-- The commands of one line: none for an empty line, one for a command, one per character for PUTS. -/
def assembleTokens : List Token → Option (List Instr)
  | [] => some []
  | [.word m] => noOperands m
  | [.word m, x] => withOne m x
  | [.word m, x, .comma, y] => withTwo m x y
  | [.word m, x, .comma, y, .comma, z] => withThree m x y z
  | _ => none

/-- The lines of a text. -/
def linesOf : List Char → List (List Char)
  | [] => [[]]
  | c :: cs =>
    if c = '\n' then [] :: linesOf cs
    else
      match linesOf cs with
      | [] => [[c]]
      | l :: ls => (c :: l) :: ls

/-- The commands of the lines, in order; none when a line is in error. -/
def assembleLines (g : Config) : List (List Char) → Option (List Instr)
  | [] => some []
  | l :: ls =>
    match (tokens g .gap l).bind assembleTokens, assembleLines g ls with
    | some is, some rest => some (is ++ rest)
    | _, _ => none

/-- R92: the commands of an assembler text. -/
def assemble (g : Config) (source : List Char) : Option (List Instr) := assembleLines g (linesOf source)

/-- The command words of an assembler text. -/
def assembleWords (g : Config) (source : List Char) : Option (List CommandWord) :=
  (assemble g source).map (fun is => is.map encode)

end Sys2Proof.Machine
end

