-- ==== Sys2Proof/Machine/Environment.lean ====
section
/-! DEFINITION. What the outside world can do to the block between two steps: the host's command port
(`30_encoding.md` R90), the reset input, at idle and during a command (`70_reset_and_hazards.md` R220, R221),
and a write to `Mem` by another master (`20_memory.md` R60). -/

namespace Sys2Proof.Machine

/-- The same block on a platform that backs every address. -/
def State.onFullMemMap (s : State) : State := { s with cfg := { s.cfg with holes := [] } }

/-- The accesses that the command on offer makes before its first that leaves MemMap, in their order
(`20_memory.md` R52): those it would make on a platform that backs every address, up to that one. -/
def State.backedAccesses (s : State) : List Access :=
  match step s.onFullMemMap with
  | .next t => t.port.log.reverse.takeWhile (fun x => s.cfg.backs x.addr x.width.bytes)
  | .fault _ => []
  | .refused _ => []

/-- The command on offer is abandoned by a reset when it has made these accesses (R221): they stay made, the host
goes on to its next word, there is no completion event, and the registers are unspecified. -/
def State.abandon (s : State) (made : List Access) (rest : List CommandWord) (col row attr : Byte) : State :=
  ({ s with port := { s.port with mem := replay made s.port.mem }, cmds := rest }).resetInput col row attr

/-- The block after a reset that arrives when `k` accesses of the command on offer have been made (R221), or all
that it can make, when it makes fewer: a mover command that leaves MemMap is stuck at the first access that does
(R52), and reset abandons it there. With no command in progress it is a reset at idle (log entry 13). -/
def State.resetDuring (s : State) (k : Nat) (col row attr : Byte) : State :=
  match step s with
  | .next t => s.abandon (t.port.log.reverse.take k) t.cmds col row attr
  | .fault .unbackedAccess => s.abandon (s.backedAccesses.take k) s.cmds.tail col row attr
  | .fault .blockFaulted => s.resetInput col row attr
  | .refused _ => s.resetInput col row attr

/-- An event of the outside world. -/
inductive HostEvent where
  /-- The host offers one more command (R90). -/
  | offer (w : CommandWord)
  /-- The reset input at idle; the registers then hold these, which nothing constrains (R220, U8). -/
  | reset (col row attr : Byte)
  /-- The reset input after `k` accesses of the command on offer (R221). -/
  | resetDuring (k : Nat) (col row attr : Byte)
  /-- Another master writes a byte of `Mem`; the block does not detect it (R60, U12). -/
  | externalWrite (a : Addr) (b : Byte)
  deriving DecidableEq, Repr

/-- The block after an event of the outside world. -/
def State.hostEvent (s : State) : HostEvent → State
  | .offer w => { s with cmds := s.cmds ++ [w] }
  | .reset col row attr => s.resetInput col row attr
  | .resetDuring k col row attr => s.resetDuring k col row attr
  | .externalWrite a b => { s with port := { s.port with mem := Memory.write s.port.mem a.toNat b } }

end Sys2Proof.Machine
end

