-- ==== Sys2Proof/Safety.lean ====
section
/-! DEFINITION. What a safe run is, in the terms the claims use: the invariant of the block, what a command
leaves alone, how a command ends, and which phases may follow one another. -/

namespace Sys2Proof.Machine

/-! ### The invariant -/

/-- What holds of the block between two steps: `Mem` is in its canonical form; the parameters meet the
constraints of `00_scope.md` R6; PHASE is IDLE (`10_state.md` R30); FCODE is 0 exactly when FAULT is 0
(R28, R29). -/
def State.Inv (s : State) : Prop :=
  Memory.wf s.port.mem = true ∧ s.cfg.valid = true ∧ s.phase = .idle ∧ (s.fault = false ↔ s.fcode = 0#2)

/-! ### What a command leaves alone -/

/-- The three console registers are unchanged. -/
def KeepsRegisters (s t : State) : Prop := t.col = s.col ∧ t.row = s.row ∧ t.attr = s.attr

/-- INITED, FAULT and FCODE are unchanged. -/
def KeepsStatus (s t : State) : Prop := t.inited = s.inited ∧ t.fault = s.fault ∧ t.fcode = s.fcode

/-- What is not the block's own is unchanged: the commands on offer and the parameters (R34). -/
def KeepsHost (s t : State) : Prop := t.cmds = s.cmds ∧ t.cfg = s.cfg

/-- Every byte of `Mem` is unchanged. -/
def KeepsMemory (s t : State) : Prop := ∀ a : Addr, t.byte a = s.byte a

/-- No access was made on the memory master port. -/
def NoAccess (s t : State) : Prop := t.port = s.port

/-- `a` is one of the `n` bytes from `base`, addresses modulo 2^32 (`20_memory.md` R58). -/
def InRegion (base : Addr) (n : Nat) (a : Addr) : Prop := (a - base).toNat < n

/-- Every byte outside the `n` bytes from `base` is unchanged. -/
def KeepsOutside (base : Addr) (n : Nat) (s t : State) : Prop :=
  ∀ a : Addr, ¬ InRegion base n a → t.byte a = s.byte a

/-- Every byte outside the grid window is unchanged (R67). -/
def KeepsOutsideGrid (s t : State) : Prop := KeepsOutside s.cfg.gridBase GRID_BYTES s t

/-! ### How a command ends -/

/-- The command completed with this response value (`30_encoding.md` R91), and PHASE is IDLE (R27). -/
def CompletedWith (t : State) (value : CellValue) : Prop := t.rsp = some ⟨true, value⟩ ∧ t.phase = .idle

/-- `raise c` of `60_exceptions.md` R201, field by field: FAULT and FCODE are set, `rsp_ok` and `rsp_data` are
0, PHASE is IDLE, the block accepts nothing from then on, and nothing else has changed. -/
def RaisedFrom (c : Cause) (s t : State) : Prop :=
  t.fault = true ∧ t.fcode = c.code ∧ t.rsp = some ⟨false, 0x0000#16⟩ ∧ t.phase = .idle ∧
  t.cmdReady = false ∧ KeepsRegisters s t ∧ t.inited = s.inited ∧ KeepsMemory s t ∧ NoAccess s t ∧
  KeepsHost s t

/-! ### The grid and the memory port -/

/-- Every access lies in MemMap, byte by byte (R52). -/
def AccessesMapped (g : Config) (log : List Access) : Prop :=
  ∀ x ∈ log, ∀ k < x.width.bytes, g.mapped (x.addr + BitVec.ofNat 32 k) = true

/-- The `n` bytes from `a` are all in MemMap (R52). -/
def RegionMapped (g : Config) (a : Addr) (n : Nat) : Prop := ∀ i < n, g.mapped (a + BitVec.ofNat 32 i) = true

/-- What an access does on the port, without its data: direction, address and width (R63). -/
abbrev Action := Direction × Addr × Width

/-- The actions of the latest command, oldest first. -/
def State.actions (s : State) : List Action := s.port.log.reverse.map (fun x => (x.dir, x.addr, x.width))

/-- One read and one write of the mover, `i` bytes into both regions. -/
def transferActions (dst src : Addr) (w : Width) (i : Nat) : List Action :=
  [(.read, src + BitVec.ofNat 32 i, w), (.write, dst + BitVec.ofNat 32 i, w)]

/-- The actions of COPY, and of MOVE upward (`40_bulk_mover.md` R111, R112). -/
def upActions (dst src : Addr) (n : Nat) : List Action :=
  (List.range n).flatMap (transferActions dst src .byte)

/-- The actions of MOVE downward (R112). -/
def downActions (dst src : Addr) (n : Nat) : List Action :=
  (List.range n).reverse.flatMap (transferActions dst src .byte)

/-- The actions of WCOPY (R113): whole words, then the bytes that remain. -/
def wordActions (dst src : Addr) (n : Nat) : List Action :=
  (List.range (n / 4)).flatMap (fun k => transferActions dst src .word (4 * k)) ++
  (List.range (n % 4)).flatMap (fun j => transferActions dst src .byte (4 * (n / 4) + j))

/-- The cell writes of clear and of the scroll's fill (`43_console_state.md` R153, `44_console_driver.md` R173). -/
def fillActions (g : Config) (first count : Nat) : List Action :=
  (List.range count).map (fun j => (.write, g.gridBase + BitVec.ofNat 32 (2 * (first + j)), .half))

/-- The actions of a scroll (R173, `40_bulk_mover.md` R116). -/
def scrollActions (g : Config) : List Action :=
  upActions g.gridBase (g.gridBase + 160#32) 3840 ++ fillActions g 1920 80

/-! ### The cursor -/

/-- The cursor is at the last cell of the grid, where the generic advance scrolls (R172). -/
abbrev AtLastCell (s : State) : Prop := s.col.toNat = 79 ∧ s.row.toNat = 24

/-- The column after the generic advance from an in-range cursor (R181). -/
def advCol (s : State) : Nat := if s.col.toNat < 79 then s.col.toNat + 1 else 0

/-- The row after the generic advance from an in-range cursor (R181). -/
def advRow (s : State) : Nat :=
  if s.col.toNat < 79 then s.row.toNat else if s.row.toNat < 24 then s.row.toNat + 1 else 24

/-- The grid after the generic advance (R172, R173), from the cells `old` it held before: scrolled up one row,
with the last row blank, when the cursor was at the last cell, and as it was otherwise. -/
def GridAdvanced (s : State) (old : Nat → CellValue) (t : State) : Prop :=
  (AtLastCell s → (∀ i < 1920, t.cell i = old (i + 80)) ∧ (∀ i < 80, t.cell (1920 + i) = s.blank)) ∧
  (¬ AtLastCell s → ∀ i < 2000, t.cell i = old i)

/-- What no PUTC changes (R179): the attribute, the status bits, the host's side and every byte outside the
grid window; and it completes with response 0. -/
def PutcFrame (s t : State) : Prop :=
  t.attr = s.attr ∧ KeepsStatus s t ∧ KeepsHost s t ∧ KeepsOutsideGrid s t ∧ CompletedWith t 0x0000#16

/-- The commands that need INITED = 1 (`60_exceptions.md` R203). -/
def needsInited : Instr → Bool
  | .copy _ _ _ => false
  | .move _ _ _ => false
  | .wcopy _ _ _ => false
  | .enca _ _ => false
  | .encc _ _ => false
  | .init => false
  | .clear => true
  | .setfg _ => true
  | .setbg _ => true
  | .goto _ _ => true
  | .putc _ => true

/-- The commands of the bulk mover. -/
def isMover : Instr → Bool
  | .copy _ _ _ => true
  | .move _ _ _ => true
  | .wcopy _ _ _ => true
  | .enca _ _ => false
  | .encc _ _ => false
  | .init => false
  | .clear => false
  | .setfg _ => false
  | .setbg _ => false
  | .goto _ _ => false
  | .putc _ => false

/-! ### Encodings -/

/-- An opcode decodes to one command, with its operands in the low bits of `a`, `b` and `c`: a word with the
opcode is that command when the bits above `ka`, `kb` and `kc` are 0, and illegal when one is 1
(`30_encoding.md` R86, R88, R89). -/
def OpcodeMeans (op : BitVec 4) (ka kb kc : Nat) (command : Fields → Instr) : Prop :=
  ∀ w : CommandWord, w.extractLsb' 96 4 = op →
    ((w.extractLsb' 64 32 >>> ka = 0#32 ∧ w.extractLsb' 32 32 >>> kb = 0#32 ∧ w.extractLsb' 0 32 >>> kc = 0#32) →
      decode w = .legal (command (Fields.ofWord w))) ∧
    (¬ (w.extractLsb' 64 32 >>> ka = 0#32 ∧ w.extractLsb' 32 32 >>> kb = 0#32 ∧ w.extractLsb' 0 32 >>> kc = 0#32) →
      decode w = .illegal (.reservedOperandBits op))

/-! ### The phases -/

/-- The phases a phase may be entered from (`10_state.md` R30). -/
def Phase.entersFrom (new old : Phase) : Bool :=
  match new with
  | .idle => true
  | .mover => old == .idle
  | .encode => old == .idle
  | .clearing => old == .idle || old == .adjust
  | .place => old == .idle
  | .advance => old == .place || old == .idle
  | .scrollMove => old == .advance
  | .scrollFill => old == .scrollMove
  | .adjust => old == .advance || old == .scrollFill

/-- The phases a command may end in, PHASE returning to IDLE (R30). -/
def Phase.returnsToIdle (p : Phase) : Bool :=
  match p with
  | .idle => true
  | .mover => true
  | .encode => true
  | .clearing => true
  | .place => false
  | .advance => false
  | .scrollMove => false
  | .scrollFill => false
  | .adjust => true

/-- From phase `p`, the phases `ps` may follow in this order, and then IDLE. -/
def Phase.path (p : Phase) : List Phase → Bool
  | [] => p.returnsToIdle
  | q :: qs => q.entersFrom p && q.path qs

/-! ### Sequences of commands -/

/-- `n` steps, one after another. A run goes no further than a step that stops: a command that faults is the last
of its run (`60_exceptions.md` R208). -/
def run : Nat → State → Result
  | 0, s => .next s
  | n + 1, s =>
    match step s with
    | .next t => run n t
    | .fault f => .fault f
    | .refused r => .refused r

/-- The same block, with these words on offer. -/
def State.offering (s : State) (ws : List CommandWord) : State := { s with cmds := ws }

/-- The host issues these commands in order (`20_memory.md` R59), and the block takes as many steps; for
`puts text` it is the string operation of `44_console_driver.md` R183. -/
def State.issue (s : State) (commands : List Instr) : Result :=
  run commands.length (s.offering (commands.map encode))

end Sys2Proof.Machine
end

