-- ==== Sys2Proof/Certificates/Slice0/Obligations.lean ====
section
/-! DEFINITION. The statements for the provers, one `def Obligations.<Name> : Prop` each, taken from the numbered
rules of the spec. -/

open Sys2Proof Sys2Proof.Machine

/-! ### Encodings -/

/-- R89: `decode(encode(k)) = k` for every command, every operand at every value of its field. -/
def Obligations.DecodeOfEncodeIsTheCommand : Prop :=
  ∀ i : Instr, decode (encode i) = .legal i

/-- R89: `encode(decode(w)) = w` for every legal word, so that a command has one word. -/
def Obligations.EncodeOfDecodeIsTheWord : Prop :=
  ∀ (w : CommandWord) (i : Instr), decode w = .legal i → encode i = w

/-- R87: the decoder reads a word as the command of the one row of the opcode map that selects it, and the rows
are disjoint. -/
def Obligations.WordsSelectAtMostOneTableRow : Prop :=
  (∀ (w : CommandWord) (i : Instr), decode w = .legal i →
    ∃ r ∈ opcodeTable, r.selects w = true ∧ r.mnemonic = i.mnemonic) ∧
  (∀ (w : CommandWord), ∀ r ∈ opcodeTable, r.selects w = true →
    ∃ i, decode w = .legal i ∧ i.mnemonic = r.mnemonic) ∧
  (∀ (w : CommandWord), ∀ r ∈ opcodeTable, ∀ r' ∈ opcodeTable, r.selects w = true → r'.selects w = true → r = r')

/-- R88: a word that no row of the opcode map selects raises IllegalCommand, FCODE 1, when it is accepted, and
changes no register and no byte of `Mem`. -/
def Obligations.UnlistedWordsRaiseIllegalCommand : Prop :=
  ∀ (s : State) (w : CommandWord) (rest : List CommandWord),
    s.cmdReady = true → s.cmds = w :: rest → (∀ r ∈ opcodeTable, r.selects w = false) →
    ∃ t, step s = .next t ∧ RaisedFrom .illegalCommand (s.accept rest) t ∧ t.fcode = 1#2

/-- The encodings that `95_test_vectors.md` writes out (sections 2.1, 2.3, 2.4, P1 to P3). -/
def Obligations.SpecWordsDecode : Prop :=
  decode 0x1000020000000100000000004#100 = .legal (.copy 0x2000#32 0x1000#32 4#32) ∧
  decode 0x2000010010000100000000004#100 = .legal (.move 0x1001#32 0x1000#32 4#32) ∧
  decode 0x3000020010000100000000006#100 = .legal (.wcopy 0x2001#32 0x1000#32 6#32) ∧
  decode 0x4000000040000000100000000#100 = .legal (.enca 4#4 1#4) ∧
  decode 0x5000000410000001400000000#100 = .legal (.encc 0x41#8 0x14#8) ∧
  decode 0x6000000000000000000000000#100 = .legal .init ∧
  decode 0x7000000000000000000000000#100 = .legal .clear ∧
  decode 0x8000000040000000000000000#100 = .legal (.setfg 4#4) ∧
  decode 0x9000000010000000000000000#100 = .legal (.setbg 1#4) ∧
  decode 0xA0000004E0000001800000000#100 = .legal (.goto 78#8 24#8) ∧
  decode 0xB000000410000000000000000#100 = .legal (.putc 0x41#8) ∧
  decode 0x4000000100000000100000000#100 = .illegal (.reservedOperandBits 4#4) ∧
  decode 0x6000000000000000000000001#100 = .illegal (.reservedOperandBits 6#4) ∧
  decode 0x0000000000000000000000000#100 = .illegal (.reservedOpcode 0#4)

/-- The assembler of R92 gives the words of program P1 of `95_test_vectors.md`, with PUTS expanded (R93). The
assembler's open points are the model's choice (log entry 19), and the default codes of the characters are PRESUMED
(K2 and K4, log entry 17). -/
def Obligations.AssemblerGivesTheWordsOfP1 : Prop :=
  assembleWords Config.default
      ("INIT\nSETFG 4 ; red\nSETBG BLUE\nPUTS ".toList ++ [doubleQuote] ++ "Hi\\n".toList ++ [doubleQuote] ++
        "\nPUTC '!'".toList) =
    some [0x6000000000000000000000000#100, 0x8000000040000000000000000#100, 0x9000000010000000000000000#100,
      0xB000000480000000000000000#100, 0xB000000690000000000000000#100, 0xB0000000A0000000000000000#100,
      0xB000000210000000000000000#100]

/-! ### Steps -/

/-- R10, R90: when the block is ready and a word on offer decodes to a command, the step is that command's
effect, from the state in which the command is accepted, where the block's own state and the parameters are
unchanged. That the host then has `rest` on offer, and that no access, phase or completion event is on record, are
clauses about the model's own fields: its choice, log entries 5 and 10. -/
def Obligations.StepRunsTheCommandOnOffer : Prop :=
  ∀ (s : State) (w : CommandWord) (rest : List CommandWord) (i : Instr),
    s.cmdReady = true → s.cmds = w :: rest → decode w = .legal i →
    step s = exec i (s.accept rest) ∧
    (s.accept rest).cmds = rest ∧ (s.accept rest).cfg = s.cfg ∧ (s.accept rest).port.log = [] ∧
    (s.accept rest).phases = [] ∧ (s.accept rest).rsp = none ∧ (s.accept rest).phase = s.phase ∧
    KeepsRegisters s (s.accept rest) ∧ KeepsStatus s (s.accept rest) ∧ KeepsMemory s (s.accept rest)

/-- R10, R90, R201, R208 (and log entry 7): a faulted block is not ready and takes no step, whatever is on offer;
so a run in which a command faults goes no further than that command. -/
def Obligations.FaultedBlockTakesNoStep : Prop :=
  (∀ s : State, s.fault = true → s.cmdReady = false ∧ step s = .fault .blockFaulted) ∧
  (∀ (n m : Nat) (s t : State), run n s = .next t → t.fault = true →
    run (n + (m + 1)) s = .fault .blockFaulted)

/-- The model's choice (log entry 6, after R212): with no command on offer a ready block stays as it is, and
its last completion event is over. -/
def Obligations.IdleBlockStaysAsItIs : Prop :=
  ∀ s : State, s.cmdReady = true → s.cmds = [] →
    ∃ t, step s = .next t ∧ t.rsp = none ∧ t.port.log = [] ∧ t.phase = s.phase ∧
      KeepsRegisters s t ∧ KeepsStatus s t ∧ KeepsHost s t ∧ KeepsMemory s t

/-- R25, R34: no step changes the parameters; GRID_BASE is hardwired. -/
def Obligations.StepKeepsTheParameters : Prop :=
  ∀ s t : State, step s = .next t → t.cfg = s.cfg

/-! ### Faults and status -/

/-- R201: a fault sets FAULT and FCODE, ends with `rsp_ok` = 0 and `rsp_data` = 0, returns PHASE to IDLE, changes
nothing else, and nothing but reset clears FAULT: no step leads on, and a word that the host offers and a write
of another master (the model's events, log entries 5 and 23) keep FAULT and FCODE. -/
def Obligations.RaiseChangesOnlyTheFaultLatch : Prop :=
  ∀ (c : Cause) (s : State), ∃ t, takeFault c s = .next t ∧ RaisedFrom c s t ∧ (∀ u, step t ≠ .next u) ∧
    (∀ w, (t.hostEvent (.offer w)).fault = true ∧ (t.hostEvent (.offer w)).fcode = c.code) ∧
    (∀ a b, (t.hostEvent (.externalWrite a b)).fault = true ∧
      (t.hostEvent (.externalWrite a b)).fcode = c.code)

/-- R202, R203: which commands fault, when and with which code: none but CLEAR, SETFG, SETBG, GOTO and PUTC
with INITED = 0 (code 2), and PUTC with INITED = 1 and the cursor out of range (code 3). IllegalCommand is
decode's alone. -/
def Obligations.CommandsFaultExactlyAsListed : Prop :=
  ∀ (i : Instr) (s t : State), s.fault = false → s.fcode = 0#2 → exec i s = .next t →
    (t.fault = true ↔
      (needsInited i = true ∧ s.inited = false) ∨
      ((∃ ch, i = .putc ch) ∧ s.inited = true ∧ ¬ (s.col.toNat < 80 ∧ s.row.toNat < 25))) ∧
    (t.fault = true → s.inited = false → t.fcode = 2#2) ∧
    (t.fault = true → s.inited = true → t.fcode = 3#2) ∧
    (t.fault = false → t.fcode = 0#2)

/-- R205: the order of the checks. An illegal word reports IllegalCommand whatever INITED is; a command that
needs INITED reports NotInitialised whatever the cursor is; PUTC then reports CursorOutOfRange, for every
character. -/
def Obligations.FaultChecksComeInOrder : Prop :=
  (∀ (s : State) (w : CommandWord) (rest : List CommandWord) (why : Illegal),
    s.cmdReady = true → s.cmds = w :: rest → decode w = .illegal why →
    ∃ t, step s = .next t ∧ RaisedFrom .illegalCommand (s.accept rest) t) ∧
  (∀ (s : State) (i : Instr), needsInited i = true → s.inited = false →
    ∃ t, exec i s = .next t ∧ RaisedFrom .notInitialised s t) ∧
  (∀ (s : State) (ch : Byte), s.inited = true → ¬ (s.col.toNat < 80 ∧ s.row.toNat < 25) →
    ∃ t, exec (.putc ch) s = .next t ∧ RaisedFrom .cursorOutOfRange s t)

/-- R29: the fields of STATUS, bit by bit, visible on the status port; FCODE reads 0 when FAULT is 0, in every state
the invariant allows; the reset value is 0. The port's other three groups are the console registers, where R33 gives
them a value: with INITED = 1 and BUSY = 0. -/
def Obligations.StatusRegisterLayout : Prop :=
  (∀ s : State,
    s.status.extractLsb' 0 1 = BitVec.ofBool (decide (s.phase ≠ .idle)) ∧
    s.status.extractLsb' 1 1 = BitVec.ofBool s.inited ∧
    s.status.extractLsb' 2 1 = BitVec.ofBool s.fault ∧
    s.status.extractLsb' 3 2 = s.fcode ∧
    s.status.extractLsb' 5 3 = 0#3 ∧
    s.statusPort.stStatus = s.status ∧
    (s.inited = true → s.busy = false →
      s.statusPort.stCol = s.col ∧ s.statusPort.stRow = s.row ∧ s.statusPort.stAttr = s.attr) ∧
    (s.Inv → s.fault = false → s.status.extractLsb' 3 2 = 0#2)) ∧
  State.reset.status = 0x00#8

/-- R28: INIT alone sets INITED, and no command clears it. -/
def Obligations.OnlyInitSetsInited : Prop :=
  ∀ (i : Instr) (s t : State), exec i s = .next t → t.inited = (s.inited || decide (i = .init))

/-- R35, R205: before INIT no command reads a console register. Whatever the three hold, a command does the same
to everything but them: the same outcome, accesses, response, phases and status; and INIT leaves the same three
registers. -/
def Obligations.RegistersAreNotReadBeforeInit : Prop :=
  ∀ (i : Instr) (s t : State) (col row attr : Byte), s.inited = false → exec i s = .next t →
    ∃ u, exec i ((s.setCursor col row).setAttr attr) = .next u ∧
      u.port = t.port ∧ u.rsp = t.rsp ∧ u.phases = t.phases ∧ u.phase = t.phase ∧
      KeepsStatus t u ∧ KeepsHost t u ∧ (i = .init → KeepsRegisters t u)

/-- R21: only INIT, SETFG and SETBG write `x[ATTR]`; only INIT, GOTO and PUTC write `x[COL]` and `x[ROW]`. -/
def Obligations.RegistersAreWrittenOnlyAsListed : Prop :=
  ∀ (i : Instr) (s t : State), exec i s = .next t →
    ((i ≠ .init ∧ (∀ c, i ≠ .setfg c) ∧ (∀ c, i ≠ .setbg c)) → t.attr = s.attr) ∧
    ((i ≠ .init ∧ (∀ x y, i ≠ .goto x y) ∧ (∀ ch, i ≠ .putc ch)) → t.col = s.col ∧ t.row = s.row)

/-- R91: every accepted word ends in a completion event: `rsp_ok` = 0 with 0x0000 when it faulted, and otherwise
`rsp_ok` = 1 with the attribute for ENCA, the cell for ENCC and 0x0000 for every other command. Then the block is
ready again, unless it faulted. -/
def Obligations.EveryCommandHasItsResponse : Prop :=
  ∀ (s t : State) (w : CommandWord) (rest : List CommandWord),
    s.cmdReady = true → s.cmds = w :: rest → step s = .next t →
    (t.fault = true → t.rsp = some ⟨false, 0x0000#16⟩) ∧
    (t.fault = false → ∃ i, decode w = .legal i ∧
      (∀ fg bg, i = .enca fg bg → t.rsp = some ⟨true, 0#8 ++ (bg ++ fg)⟩) ∧
      (∀ ch attr, i = .encc ch attr → t.rsp = some ⟨true, attr ++ ch⟩) ∧
      ((∀ fg bg, i ≠ .enca fg bg) → (∀ ch attr, i ≠ .encc ch attr) → t.rsp = some ⟨true, 0x0000#16⟩)) ∧
    t.cmdReady = !t.fault

/-- R30: the phases a step passes through follow one another as the table of phases allows, and PHASE is IDLE
again at its end. -/
def Obligations.PhasesFollowTheTable : Prop :=
  ∀ s t : State, step s = .next t → Phase.path .idle t.phases.reverse = true ∧ t.phase = .idle

/-! ### Memory -/

/-- Equal memories are equal data: two memories in canonical form that read alike everywhere are the same
list. -/
def Obligations.CanonicalMemoriesThatReadAlikeAreEqual : Prop :=
  ∀ m m' : Memory, Memory.wf m = true → Memory.wf m' = true →
    (∀ a : Addr, Memory.read m a.toNat = Memory.read m' a.toNat) → m = m'

/-- R9, R53: what is written is read back, little-endian: an access of `n` bytes puts byte `k` of its value at
`(addr + k) mod 2^32`, leaves every other byte alone, and a read of the same width gives the value back with
zeros above. -/
def Obligations.MemoryAccessesAreLittleEndian : Prop :=
  ∀ (p : MemPort) (a : Addr) (w : Width) (v : BitVec 32),
    (∀ k < w.bytes, (p.memWrite a w v).byte (a + BitVec.ofNat 32 k) = v.extractLsb' (8 * k) 8) ∧
    (∀ x : Addr, ¬ InRegion a w.bytes x → (p.memWrite a w v).byte x = p.byte x) ∧
    (p.memWrite a w v).value a w = v &&& BitVec.ofNat 32 (2 ^ (8 * w.bytes) - 1)

/-- R55, R59: the accesses a command makes on the port account for all it does to `Mem`, in their order. -/
def Obligations.AccessesAccountForMemory : Prop :=
  ∀ (i : Instr) (s t : State), exec i s = .next t →
    ∃ made : List Access, t.port.log = made.reverse ++ s.port.log ∧ t.port.mem = replay made s.port.mem

/-- R52: no command makes an access outside MemMap. -/
def Obligations.AccessesStayInMemMap : Prop :=
  ∀ (i : Instr) (s t : State), s.cfg.valid = true → AccessesMapped s.cfg s.port.log → exec i s = .next t →
    AccessesMapped t.cfg t.port.log

/-- R67, R50: no command but the mover's writes a byte outside the grid window; and ENCA, ENCC, SETFG, SETBG
and GOTO make no access. -/
def Obligations.ConsoleWritesStayInTheGrid : Prop :=
  ∀ (i : Instr) (s t : State), exec i s = .next t →
    (isMover i = false → KeepsOutsideGrid s t) ∧
    ((∃ fg bg, i = .enca fg bg) ∨ (∃ ch attr, i = .encc ch attr) ∨ (∃ c, i = .setfg c) ∨ (∃ c, i = .setbg c) ∨
      (∃ x y, i = .goto x y) → NoAccess s t)

/-! ### The bulk mover -/

/-- R111: COPY, for every operand. Byte `i` of the destination takes byte `i mod d` of the source, with
d = (dst - src) mod 2^32: the byte `i` itself unless `0 < d < n`, and then the first `d` bytes of the source
repeat. That overlapped result is the loop's literal one, which the source never promised and on which no claim
about the original should rest (D17, U4, log entry 16). -/
def Obligations.CopyRunsItsLoop : Prop :=
  OpcodeMeans 0x1#4 32 32 32 (fun f => .copy f.a f.b f.c) ∧
  ∀ (dst src n : Addr) (s : State), RegionMapped s.cfg src n.toNat → RegionMapped s.cfg dst n.toNat →
    ∃ t, exec (.copy dst src n) s = .next t ∧
      (∀ i < n.toNat, t.byte (dst + BitVec.ofNat 32 i) =
        s.byte (src + BitVec.ofNat 32 (if 0 < (dst - src).toNat ∧ (dst - src).toNat < n.toNat
          then i % (dst - src).toNat else i))) ∧
      KeepsOutside dst n.toNat s t ∧ t.actions = s.actions ++ upActions dst src n.toNat ∧
      KeepsRegisters s t ∧ KeepsStatus s t ∧ KeepsHost s t ∧ CompletedWith t 0x0000#16

/-- R112: MOVE, for every operand. With d = (dst - src) mod 2^32 it runs downward when `0 < d < n`, and then
byte `i` of the destination takes the byte of the source that lies a whole number of 2^32 - d above it, as far
up as the source goes; otherwise it runs upward and byte `i` takes byte `i`. The direction test is the spec's choice
(D16, C2), and for n > 2^31 with both ends overlapping the result is the loop's literal one (U5, log entry 16). -/
def Obligations.MoveRunsItsLoop : Prop :=
  OpcodeMeans 0x2#4 32 32 32 (fun f => .move f.a f.b f.c) ∧
  ∀ (dst src n : Addr) (s : State), RegionMapped s.cfg src n.toNat → RegionMapped s.cfg dst n.toNat →
    ∃ t, exec (.move dst src n) s = .next t ∧
      (∀ i < n.toNat, t.byte (dst + BitVec.ofNat 32 i) =
        s.byte (src + BitVec.ofNat 32 (if 0 < (dst - src).toNat ∧ (dst - src).toNat < n.toNat
          then n.toNat - 1 - (n.toNat - 1 - i) % (2 ^ 32 - (dst - src).toNat) else i))) ∧
      KeepsOutside dst n.toNat s t ∧
      t.actions = s.actions ++
        (if 0 < (dst - src).toNat ∧ (dst - src).toNat < n.toNat
          then downActions dst src n.toNat else upActions dst src n.toNat) ∧
      KeepsRegisters s t ∧ KeepsStatus s t ∧ KeepsHost s t ∧ CompletedWith t 0x0000#16

/-- R113: WCOPY, for every operand. Byte `i` belongs to the word of four bytes it lies in, or to itself in the
tail; it takes the byte its source held when that word, or byte, was read: the destination's own byte `i - d`
where an earlier word or byte had replaced it, the source's old byte otherwise. The overlapped result, for
`0 < d < n`, is the loops' literal one, which the source never promised (D17, U4, log entry 16). -/
def Obligations.WcopyRunsItsLoops : Prop :=
  OpcodeMeans 0x3#4 32 32 32 (fun f => .wcopy f.a f.b f.c) ∧
  ∀ (dst src n : Addr) (s : State), RegionMapped s.cfg src n.toNat → RegionMapped s.cfg dst n.toNat →
    ∃ t, exec (.wcopy dst src n) s = .next t ∧
      (∀ i < n.toNat, t.byte (dst + BitVec.ofNat 32 i) =
        if 0 < (dst - src).toNat ∧ (dst - src).toNat ≤ i ∧
            i - (dst - src).toNat < (if i < 4 * (n.toNat / 4) then 4 * (i / 4) else i)
          then t.byte (dst + BitVec.ofNat 32 (i - (dst - src).toNat))
          else s.byte (src + BitVec.ofNat 32 i)) ∧
      KeepsOutside dst n.toNat s t ∧ t.actions = s.actions ++ wordActions dst src n.toNat ∧
      KeepsRegisters s t ∧ KeepsStatus s t ∧ KeepsHost s t ∧ CompletedWith t 0x0000#16

/-- R114: when the regions are disjoint, as sets of addresses modulo 2^32, exactly when `n = 0`, or `n ≤ d` and
`n ≤ 2^32 - d`; and then the three commands give the same `Mem`, the snapshot of the source. More generally
COPY and WCOPY give it, and MOVE by its upward loop, whenever not `0 < d < n`. -/
def Obligations.MoversAgreeWithoutOverlap : Prop :=
  ∀ (dst src n : Addr),
    ((∀ a : Addr, ¬ (InRegion src n.toNat a ∧ InRegion dst n.toNat a)) ↔
      n.toNat = 0 ∨ (n.toNat ≤ (dst - src).toNat ∧ n.toNat ≤ 2 ^ 32 - (dst - src).toNat)) ∧
    ∀ (s : State), RegionMapped s.cfg src n.toNat → RegionMapped s.cfg dst n.toNat →
      ¬ (0 < (dst - src).toNat ∧ (dst - src).toNat < n.toNat) →
      ∃ t u v, exec (.copy dst src n) s = .next t ∧ exec (.move dst src n) s = .next u ∧
        exec (.wcopy dst src n) s = .next v ∧
        (∀ i < n.toNat, t.byte (dst + BitVec.ofNat 32 i) = s.byte (src + BitVec.ofNat 32 i)) ∧
        KeepsOutside dst n.toNat s t ∧ KeepsMemory t u ∧ KeepsMemory t v ∧
        u.actions = s.actions ++ upActions dst src n.toNat

/-- R115: MOVE is overlap-safe: for `n ≤ 2^31` it gives the snapshot of the source for every `dst` and `src`. -/
def Obligations.MoveIsOverlapSafe : Prop :=
  ∀ (dst src n : Addr) (s : State), n.toNat ≤ 2 ^ 31 →
    RegionMapped s.cfg src n.toNat → RegionMapped s.cfg dst n.toNat →
    ∃ t, exec (.move dst src n) s = .next t ∧
      (∀ i < n.toNat, t.byte (dst + BitVec.ofNat 32 i) = s.byte (src + BitVec.ofNat 32 i)) ∧
      KeepsOutside dst n.toNat s t

/-- R52, R110: a mover command that would touch an address outside MemMap has no step. -/
def Obligations.MoverOutsideMemMapHasNoStep : Prop :=
  ∀ (dst src n : Addr) (s : State),
    ¬ (RegionMapped s.cfg src n.toNat ∧ RegionMapped s.cfg dst n.toNat) →
    exec (.copy dst src n) s = .fault .unbackedAccess ∧ exec (.move dst src n) s = .fault .unbackedAccess ∧
    exec (.wcopy dst src n) s = .fault .unbackedAccess

/-! ### The cell encoder -/

/-- R130: `encode_attribute` puts bg in the high nibble and fg in the low one, and is a bijection. -/
def Obligations.EncodeAttributeIsABijection : Prop :=
  (∀ fg bg : Color, (encodeAttribute fg bg).toNat = bg.toNat * 16 + fg.toNat ∧
    attrFg (encodeAttribute fg bg) = fg ∧ attrBg (encodeAttribute fg bg) = bg) ∧
  (∀ a : Byte, encodeAttribute (attrFg a) (attrBg a) = a)

/-- R131, R132: `encode_cell` puts the attribute above the character, for every character, control codes
included, and its two bytes give the character and the attribute back. -/
def Obligations.EncodeCellRoundTrips : Prop :=
  (∀ ch attr : Byte, (encodeCell ch attr).toNat = attr.toNat * 256 + ch.toNat ∧
    cellChar (encodeCell ch attr) = ch ∧ cellAttr (encodeCell ch attr) = attr) ∧
  (∀ v : CellValue, encodeCell (cellChar v) (cellAttr v) = v)

/-- R133: ENCA returns the attribute, zero-extended, in every state, and changes nothing. -/
def Obligations.EncaReturnsTheAttribute : Prop :=
  OpcodeMeans 0x4#4 4 4 0 (fun f => .enca (f.a.setWidth 4) (f.b.setWidth 4)) ∧
  ∀ (fg bg : Color) (s : State), ∃ t, exec (.enca fg bg) s = .next t ∧
    CompletedWith t (BitVec.ofNat 16 (bg.toNat * 16 + fg.toNat)) ∧
    KeepsRegisters s t ∧ KeepsStatus s t ∧ KeepsHost s t ∧ KeepsMemory s t ∧ NoAccess s t

/-- R134: ENCC returns the cell of its operands, in every state, and changes nothing. -/
def Obligations.EnccReturnsTheCell : Prop :=
  OpcodeMeans 0x5#4 8 8 0 (fun f => .encc (f.a.setWidth 8) (f.b.setWidth 8)) ∧
  ∀ (ch attr : Byte) (s : State), ∃ t, exec (.encc ch attr) s = .next t ∧
    CompletedWith t (BitVec.ofNat 16 (attr.toNat * 256 + ch.toNat)) ∧
    KeepsRegisters s t ∧ KeepsStatus s t ∧ KeepsHost s t ∧ KeepsMemory s t ∧ NoAccess s t

/-! ### The address generator -/

/-- R140: `cell_index` is a bijection from the in-range positions to 0 .. 1999. -/
def Obligations.CellIndexIsABijection : Prop :=
  (∀ col row, col < 80 → row < 25 → cellIndex col row = row * 80 + col ∧ cellIndex col row < 2000 ∧
    cellIndex col row % 80 = col ∧ cellIndex col row / 80 = row) ∧
  (∀ i < 2000, i % 80 < 80 ∧ i / 80 < 25 ∧ cellIndex (i % 80) (i / 80) = i)

/-- R141, R145: the cell address is GRID_BASE + 160 row + 2 column with no carry, even, and inside the grid
window. -/
def Obligations.CellAddressesNeitherCarryNorLeaveTheGrid : Prop :=
  ∀ (g : Config) (col row : Byte), g.valid = true → col.toNat < 80 → row.toNat < 25 →
    (g.cellAddr col row).toNat = g.gridBase.toNat + 160 * row.toNat + 2 * col.toNat ∧
    (g.cellAddr col row).toNat % 2 = 0 ∧ (g.cellAddr col row).toNat + 2 ≤ g.gridBase.toNat + 4000 ∧
    g.gridBase.toNat + 4000 ≤ 2 ^ 32

/-- R144, at the default GRID_BASE, which is from general knowledge (K1, log entry 17). -/
def Obligations.DefaultCellAddresses : Prop :=
  Config.default.cellAddr 0#8 0#8 = 0x000B8000#32 ∧ Config.default.cellAddr 1#8 0#8 = 0x000B8002#32 ∧
  Config.default.cellAddr 0#8 1#8 = 0x000B80A0#32 ∧ Config.default.cellAddr 79#8 24#8 = 0x000B8F9E#32 ∧
  Config.default.rowAddr 24 = 0x000B8F00#32 ∧ Config.default.valid = true

/-! ### The console state commands -/

/-- R151: INIT, in every state: cursor (0, 0), attribute 0x07, INITED 1, every cell a space of attribute 0x07,
nothing outside the grid changed, FAULT and FCODE unchanged, so that STATUS reads 0x02 (R35). -/
def Obligations.InitBringsTheConsoleToItsStart : Prop :=
  OpcodeMeans 0x6#4 0 0 0 (fun _ => .init) ∧
  ∀ s : State, ∃ t, exec .init s = .next t ∧
    t.col = 0#8 ∧ t.row = 0#8 ∧ t.attr = 0x07#8 ∧ t.inited = true ∧
    (∀ i < 2000, t.cell i = encodeCell s.cfg.space 0x07#8) ∧ KeepsOutsideGrid s t ∧
    t.actions = s.actions ++ fillActions s.cfg 0 2000 ∧
    t.fault = s.fault ∧ t.fcode = s.fcode ∧ (s.fault = false → s.fcode = 0#2 → t.status = 0x02#8) ∧
    KeepsHost s t ∧ CompletedWith t 0x0000#16

/-- R152, R153: CLEAR writes every cell, in ascending order, with a space of the current attribute, moves
nothing else, and needs INITED but not a cursor in range. -/
def Obligations.ClearBlanksTheGrid : Prop :=
  OpcodeMeans 0x7#4 0 0 0 (fun _ => .clear) ∧
  ∀ s : State,
    (s.inited = true → ∃ t, exec .clear s = .next t ∧
      (∀ i < 2000, t.cell i = encodeCell s.cfg.space s.attr) ∧ KeepsOutsideGrid s t ∧
      t.actions = s.actions ++ fillActions s.cfg 0 2000 ∧
      KeepsRegisters s t ∧ KeepsStatus s t ∧ KeepsHost s t ∧ CompletedWith t 0x0000#16) ∧
    (s.inited = false → ∃ t, exec .clear s = .next t ∧ RaisedFrom .notInitialised s t)

/-- R152: CLEAR twice gives the same `Mem` as once. The sequence starts with FAULT = 0 (R208). -/
def Obligations.ClearTwiceIsClearOnce : Prop :=
  ∀ s : State, s.cmdReady = true → s.inited = true →
    ∃ t u, s.issue [.clear] = .next t ∧ s.issue [.clear, .clear] = .next u ∧
      t.fault = false ∧ u.fault = false ∧ KeepsMemory t u ∧ KeepsRegisters t u

/-- R154: SETFG writes the low nibble of the attribute and keeps the high one bit for bit. -/
def Obligations.SetfgWritesTheForeground : Prop :=
  OpcodeMeans 0x8#4 4 0 0 (fun f => .setfg (f.a.setWidth 4)) ∧
  ∀ (c : Color) (s : State),
    (s.inited = true → ∃ t, exec (.setfg c) s = .next t ∧
      t.attr.extractLsb' 0 4 = c ∧ t.attr.extractLsb' 4 4 = s.attr.extractLsb' 4 4 ∧
      t.col = s.col ∧ t.row = s.row ∧ KeepsStatus s t ∧ KeepsHost s t ∧ KeepsMemory s t ∧ NoAccess s t ∧
      CompletedWith t 0x0000#16) ∧
    (s.inited = false → ∃ t, exec (.setfg c) s = .next t ∧ RaisedFrom .notInitialised s t)

/-- R155: SETBG writes the high nibble of the attribute and keeps the low one bit for bit; SETFG and SETBG
commute, issued with FAULT = 0 (R208). -/
def Obligations.SetbgWritesTheBackground : Prop :=
  OpcodeMeans 0x9#4 4 0 0 (fun f => .setbg (f.a.setWidth 4)) ∧
  (∀ (c : Color) (s : State),
    (s.inited = true → ∃ t, exec (.setbg c) s = .next t ∧
      t.attr.extractLsb' 4 4 = c ∧ t.attr.extractLsb' 0 4 = s.attr.extractLsb' 0 4 ∧
      t.col = s.col ∧ t.row = s.row ∧ KeepsStatus s t ∧ KeepsHost s t ∧ KeepsMemory s t ∧ NoAccess s t ∧
      CompletedWith t 0x0000#16) ∧
    (s.inited = false → ∃ t, exec (.setbg c) s = .next t ∧ RaisedFrom .notInitialised s t)) ∧
  (∀ (fg bg : Color) (s : State), s.cmdReady = true → s.inited = true →
    ∃ u u', s.issue [.setfg fg, .setbg bg] = .next u ∧ s.issue [.setbg bg, .setfg fg] = .next u' ∧
      u.attr = bg ++ fg ∧ u'.attr = bg ++ fg ∧ KeepsStatus s u ∧ KeepsStatus s u')

/-- R156: GOTO stores its operands as given, in range or not, and never faults for the range. -/
def Obligations.GotoStoresItsOperands : Prop :=
  OpcodeMeans 0xA#4 8 8 0 (fun f => .goto (f.a.setWidth 8) (f.b.setWidth 8)) ∧
  ∀ (xv yv : Byte) (s : State),
    (s.inited = true → ∃ t, exec (.goto xv yv) s = .next t ∧
      t.col = xv ∧ t.row = yv ∧ t.attr = s.attr ∧ KeepsStatus s t ∧ KeepsHost s t ∧ KeepsMemory s t ∧
      NoAccess s t ∧ CompletedWith t 0x0000#16) ∧
    (s.inited = false → ∃ t, exec (.goto xv yv) s = .next t ∧ RaisedFrom .notInitialised s t)

/-! ### PUTC -/

/-- R170: the encoding and the checks of PUTC, before any effect, for every character. -/
def Obligations.PutcChecksBeforeAnyEffect : Prop :=
  OpcodeMeans 0xB#4 8 0 0 (fun f => .putc (f.a.setWidth 8)) ∧
  ∀ (ch : Byte) (s : State),
    (s.inited = false → ∃ t, exec (.putc ch) s = .next t ∧ RaisedFrom .notInitialised s t) ∧
    (s.inited = true → ¬ (s.col.toNat < 80 ∧ s.row.toNat < 25) →
      ∃ t, exec (.putc ch) s = .next t ∧ RaisedFrom .cursorOutOfRange s t)

/-- R171, R172, R173: PUTC of a character that is no control code writes its cell at the cursor and advances
the cursor, wrapping at column 80 and scrolling at row 25; the scroll moves the new cell up too. -/
def Obligations.PutcPlacesACharacterAndAdvances : Prop :=
  ∀ (ch : Byte) (s : State), s.inited = true → s.col.toNat < 80 → s.row.toNat < 25 →
    s.cfg.isControl ch = false →
    ∃ t, exec (.putc ch) s = .next t ∧
      t.col.toNat = advCol s ∧ t.row.toNat = advRow s ∧
      GridAdvanced s (fun i => if i = s.row.toNat * 80 + s.col.toNat then encodeCell ch s.attr else s.cell i) t ∧
      PutcFrame s t

/-- R178: PUTC of BEL writes no cell and moves the cursor as a printed character would. -/
def Obligations.PutcBellOnlyAdvances : Prop :=
  ∀ (s : State), s.inited = true → s.col.toNat < 80 → s.row.toNat < 25 → s.cfg.valid = true →
    ∃ t, exec (.putc s.cfg.bel) s = .next t ∧
      t.col.toNat = advCol s ∧ t.row.toNat = advRow s ∧ GridAdvanced s s.cell t ∧ PutcFrame s t

/-- R174: PUTC of BS moves the column two back after the generic advance, bounded below by 0, and writes no
cell. -/
def Obligations.PutcBackspaceMovesBack : Prop :=
  ∀ (s : State), s.inited = true → s.col.toNat < 80 → s.row.toNat < 25 → s.cfg.valid = true →
    ∃ t, exec (.putc s.cfg.bs) s = .next t ∧
      t.col.toNat = advCol s - 2 ∧ t.row.toNat = advRow s ∧ GridAdvanced s s.cell t ∧ PutcFrame s t

/-- R175: PUTC of LF forces column 0 and advances the row once more after the generic advance, with no test for
HEIGHT and no scroll of its own. -/
def Obligations.PutcLineFeedAdvancesTheRowAgain : Prop :=
  ∀ (s : State), s.inited = true → s.col.toNat < 80 → s.row.toNat < 25 → s.cfg.valid = true →
    ∃ t, exec (.putc s.cfg.lf) s = .next t ∧
      t.col.toNat = 0 ∧ t.row.toNat = advRow s + 1 ∧ GridAdvanced s s.cell t ∧ PutcFrame s t

/-- R176: PUTC of FF clears the grid with the current attribute after the generic advance, and does not home the
cursor. -/
def Obligations.PutcFormFeedClearsWithoutHoming : Prop :=
  ∀ (s : State), s.inited = true → s.col.toNat < 80 → s.row.toNat < 25 → s.cfg.valid = true →
    ∃ t, exec (.putc s.cfg.ff) s = .next t ∧
      t.col.toNat = advCol s ∧ t.row.toNat = advRow s ∧
      (∀ i < 2000, t.cell i = encodeCell s.cfg.space s.attr) ∧ PutcFrame s t

/-- R177: PUTC of CR forces column 0 of the row the generic advance left. -/
def Obligations.PutcCarriageReturnForcesColumnZero : Prop :=
  ∀ (s : State), s.inited = true → s.col.toNat < 80 → s.row.toNat < 25 → s.cfg.valid = true →
    ∃ t, exec (.putc s.cfg.cr) s = .next t ∧
      t.col.toNat = 0 ∧ t.row.toNat = advRow s ∧ GridAdvanced s s.cell t ∧ PutcFrame s t

/-- R22, R23, R32 (a): from a cursor in range PUTC leaves the column in 0 .. 79 and the row in 0 .. 25, and
row 25 exactly when the character is LF and the row after the generic advance is 24. -/
def Obligations.PutcKeepsTheCursorInRangeButForLineFeed : Prop :=
  ∀ (ch : Byte) (s : State), s.inited = true → s.col.toNat < 80 → s.row.toNat < 25 → s.cfg.valid = true →
    ∃ t, exec (.putc ch) s = .next t ∧ t.col.toNat < 80 ∧ t.row.toNat ≤ 25 ∧
      (t.row.toNat = 25 ↔ ch = s.cfg.lf ∧ advRow s = 24)

/-- R55, R179, R180: the accesses and the phases of PUTC, in their order: the placement unless `ch` is a control
code, the generic advance with its scroll at the last cell only, the adjustment, and the clear for FF. -/
def Obligations.PutcAccessesAndPhases : Prop :=
  ∀ (ch : Byte) (s : State), s.inited = true → s.col.toNat < 80 → s.row.toNat < 25 → s.cfg.valid = true →
    ∃ t, exec (.putc ch) s = .next t ∧
      t.actions = s.actions ++
        (if s.cfg.isControl ch = true then [] else [(.write, s.cfg.cellAddr s.col s.row, .half)]) ++
        (if s.col.toNat = 79 ∧ s.row.toNat = 24 then scrollActions s.cfg else []) ++
        (if ch = s.cfg.ff then fillActions s.cfg 0 2000 else []) ∧
      t.phases.reverse = s.phases.reverse ++
        (if s.cfg.isControl ch = true then [] else [.place]) ++ [.advance] ++
        (if s.col.toNat = 79 ∧ s.row.toNat = 24 then [.scrollMove, .scrollFill] else []) ++ [.adjust] ++
        (if ch = s.cfg.ff then [.clearing] else [])

/-- R184: a sequence of L characters that are no control codes, issued with FAULT = 0 (R208) from cursor (0, 0)
with L at most 1999, ends without a fault and with the cursor at (L mod 80, L div 80); cell i holds character i with
the attribute, and every other cell is unchanged. -/
def Obligations.PrintedCharactersFillTheGridInOrder : Prop :=
  ∀ (text : List Byte) (s : State), s.cmdReady = true → s.inited = true → s.col = 0#8 → s.row = 0#8 →
    s.cfg.valid = true → (∀ ch ∈ text, s.cfg.isControl ch = false) → text.length ≤ 1999 →
    ∃ t, s.issue (puts text) = .next t ∧
      t.col.toNat = text.length % 80 ∧ t.row.toNat = text.length / 80 ∧
      (∀ i (h : i < text.length), t.cell i = encodeCell text[i] s.attr) ∧
      (∀ i, text.length ≤ i → i < 2000 → t.cell i = s.cell i) ∧
      KeepsOutsideGrid s t ∧ KeepsStatus s t ∧ t.attr = s.attr

/-- R185: INIT and then 2000 characters that are no control codes, issued with FAULT = 0 (R208), scroll once, at the
last of them, and none faults: rows 0 to 23 hold the characters from the 81st on, row 24 is blank and the cursor is
at (0, 24); one more character is written to cell (0, 24) and leaves the cursor at (1, 24) and the rest of the grid
as it was. -/
def Obligations.TwoThousandPrintedCharactersScrollOnce : Prop :=
  ∀ (text : List Byte) (s : State), s.cmdReady = true → s.cfg.valid = true →
    (∀ ch ∈ text, s.cfg.isControl ch = false) → text.length = 2000 →
    ∃ t, s.issue (.init :: puts text) = .next t ∧ t.fault = false ∧
      t.col = 0#8 ∧ t.row = 24#8 ∧
      (∀ i (h : i + 80 < text.length), t.cell i = encodeCell text[i + 80] 0x07#8) ∧
      (∀ i, 1920 ≤ i → i < 2000 → t.cell i = encodeCell s.cfg.space 0x07#8) ∧
      ∀ ch, s.cfg.isControl ch = false → ∃ u, t.issue [.putc ch] = .next u ∧ u.fault = false ∧
        u.col = 1#8 ∧ u.row = 24#8 ∧
        ∀ i < 2000, u.cell i = if i = 1920 then encodeCell ch 0x07#8 else t.cell i

/-! ### Reset and the invariant -/

/-- R220, R35: the reset input clears INITED, FAULT and FCODE, returns PHASE to IDLE, makes no access and
makes the block ready, whatever its registers then hold; and STATUS reads 0x00. The state right after reset is
such a state. -/
def Obligations.ResetLeavesTheBlockReady : Prop :=
  (∀ (s : State) (col row attr : Byte),
    (s.resetInput col row attr).inited = false ∧ (s.resetInput col row attr).fault = false ∧
    (s.resetInput col row attr).fcode = 0#2 ∧ (s.resetInput col row attr).phase = .idle ∧
    (s.resetInput col row attr).status = 0x00#8 ∧ (s.resetInput col row attr).cmdReady = true ∧
    (s.resetInput col row attr).port.log = [] ∧
    KeepsMemory s (s.resetInput col row attr) ∧ KeepsHost s (s.resetInput col row attr)) ∧
  State.reset.inited = false ∧ State.reset.fault = false ∧ State.reset.fcode = 0#2 ∧ State.reset.phase = .idle ∧
  State.reset.status = 0x00#8 ∧ State.reset.cmdReady = true

/-- R221: a reset that arrives when CLEAR has made `k` of its accesses leaves a partly cleared grid: the first
`k` cells blank, the others as they were, nothing outside the grid touched, and no completion event. -/
def Obligations.ResetDuringClearLeavesAPartlyClearedGrid : Prop :=
  ∀ (s : State) (rest : List CommandWord) (k : Nat) (col row attr : Byte),
    s.cmdReady = true → s.cmds = encode .clear :: rest → s.inited = true →
    (∀ i < 2000, (s.resetDuring k col row attr).cell i = if i < k then s.blank else s.cell i) ∧
    KeepsOutsideGrid s (s.resetDuring k col row attr) ∧ (s.resetDuring k col row attr).rsp = none ∧
    (s.resetDuring k col row attr).inited = false ∧ (s.resetDuring k col row attr).cmdReady = true

/-- R221: a reset during a command abandons it, whichever it is: the host's next word is the one after it, there is
no completion event, and the block is as after any reset; of a command that takes a step exactly the first `k`
accesses stay made. A COPY that is stuck at byte `m`, since one of the two addresses of that byte is outside MemMap
(R52), keeps the bytes it has moved, here the snapshot of a source that they do not overwrite. The operation and its
arguments are the model's, log entry 13. -/
def Obligations.ResetAbandonsTheCommandInProgress : Prop :=
  (∀ (s : State) (w : CommandWord) (rest : List CommandWord) (k : Nat) (col row attr : Byte),
    s.cmdReady = true → s.cmds = w :: rest →
    (s.resetDuring k col row attr).cmds = rest ∧ (s.resetDuring k col row attr).rsp = none ∧
    (s.resetDuring k col row attr).inited = false ∧ (s.resetDuring k col row attr).fault = false ∧
    (s.resetDuring k col row attr).fcode = 0#2 ∧ (s.resetDuring k col row attr).cmdReady = true ∧
    (s.resetDuring k col row attr).cfg = s.cfg ∧
    ∀ t, step s = .next t →
      (s.resetDuring k col row attr).port.mem = replay (t.port.log.reverse.take k) s.port.mem) ∧
  (∀ (s : State) (rest : List CommandWord) (dst src n : Addr) (m k : Nat) (col row attr : Byte),
    s.cmdReady = true → s.cmds = encode (.copy dst src n) :: rest → m < n.toNat →
    RegionMapped s.cfg src m → RegionMapped s.cfg dst m →
    ¬ (s.cfg.mapped (src + BitVec.ofNat 32 m) = true ∧ s.cfg.mapped (dst + BitVec.ofNat 32 m) = true) →
    ¬ (0 < (dst - src).toNat ∧ (dst - src).toNat < m) → 2 * m ≤ k →
    (∀ i < m, (s.resetDuring k col row attr).byte (dst + BitVec.ofNat 32 i) = s.byte (src + BitVec.ofNat 32 i)) ∧
    KeepsOutside dst m s (s.resetDuring k col row attr))

/-- The invariant holds right after reset. -/
def Obligations.InvariantHoldsAtReset : Prop :=
  State.reset.Inv

/-- Every step keeps the invariant: the canonical form of `Mem`, the constraints on the parameters, PHASE IDLE,
and FCODE 0 exactly when FAULT is 0. -/
def Obligations.StepKeepsTheInvariant : Prop :=
  ∀ s t : State, s.Inv → step s = .next t → t.Inv

/-- Every event of the outside world keeps the invariant. -/
def Obligations.HostEventsKeepTheInvariant : Prop :=
  ∀ (s : State) (e : HostEvent), s.Inv → (s.hostEvent e).Inv
end

