-- ==== Sys2Proof/Laws/Memory.lean ====
section
/-! SUPPORT. The laws of `Mem`: a read after a write, the canonical form, and the bytes of a wide access. -/

namespace Sys2Proof.Machine

/-! ### One byte -/

@[simp] theorem Memory.read_nil (a : Nat) : Memory.read [] a = Memory.unlisted := rfl

theorem Memory.read_cons (k : Nat) (v : Byte) (m : Memory) (a : Nat) :
    Memory.read ((k, v) :: m) a = if k = a then v else Memory.read m a := rfl

theorem Memory.read_put (a : Nat) (b : Byte) (m : Memory) (x : Nat) :
    Memory.read (Memory.put a b m) x = if x = a then b else Memory.read m x := by
  induction m with
  | nil => simp only [Memory.put, Memory.read_cons, eq_comm]
  | cons c m ih =>
    obtain ⟨k, v⟩ := c
    simp only [Memory.put]
    split_ifs <;> simp only [Memory.read_cons, ih] <;> split_ifs <;> first | rfl | omega

theorem Memory.read_filter_ne (a : Nat) (m : Memory) (x : Nat) :
    Memory.read (m.filter (fun c => c.1 ≠ a)) x = if x = a then Memory.unlisted else Memory.read m x := by
  induction m with
  | nil => simp
  | cons c m ih =>
    obtain ⟨k, v⟩ := c
    by_cases hk : k = a
    · rw [List.filter_cons_of_neg (by simp [hk]), ih, Memory.read_cons]
      split_ifs <;> first | rfl | omega
    · rw [List.filter_cons_of_pos (by simp [hk]), Memory.read_cons, Memory.read_cons, ih]
      split_ifs <;> first | rfl | omega

/-- A read after a write gives the byte written at that address, and the old byte at every other. -/
theorem Memory.read_write (m : Memory) (a : Nat) (b : Byte) (x : Nat) :
    Memory.read (Memory.write m a b) x = if x = a then b else Memory.read m x := by
  unfold Memory.write
  split_ifs with hb hx hx <;> simp only [Memory.read_put, Memory.read_filter_ne, hx, hb, if_true, if_false]

/-! ### The canonical form -/

@[simp] theorem Memory.wfFrom_nil (lo : Nat) : Memory.wfFrom lo [] = true := rfl

theorem Memory.wfFrom_cons (lo k : Nat) (v : Byte) (m : Memory) :
    Memory.wfFrom lo ((k, v) :: m) = true ↔
      lo ≤ k ∧ k < 2 ^ 32 ∧ v ≠ Memory.unlisted ∧ Memory.wfFrom (k + 1) m = true := by
  simp [Memory.wfFrom, and_assoc]

theorem Memory.wfFrom_mono {lo lo' : Nat} (m : Memory) (h : lo' ≤ lo) (hm : Memory.wfFrom lo m = true) :
    Memory.wfFrom lo' m = true := by
  cases m with
  | nil => rfl
  | cons c m =>
    obtain ⟨k, v⟩ := c
    rw [Memory.wfFrom_cons] at hm ⊢
    exact ⟨h.trans hm.1, hm.2⟩

theorem Memory.wfFrom_put {a : Nat} {b : Byte} (m : Memory) (lo : Nat) (hlo : lo ≤ a) (ha : a < 2 ^ 32)
    (hb : b ≠ Memory.unlisted) (hm : Memory.wfFrom lo m = true) : Memory.wfFrom lo (Memory.put a b m) = true := by
  induction m generalizing lo with
  | nil => exact (Memory.wfFrom_cons ..).2 ⟨hlo, ha, hb, rfl⟩
  | cons c m ih =>
    obtain ⟨k, v⟩ := c
    obtain ⟨h1, h2, h3, h4⟩ := (Memory.wfFrom_cons ..).1 hm
    simp only [Memory.put]
    split_ifs with h h'
    · exact (Memory.wfFrom_cons ..).2 ⟨h1, h2, h3, ih (k + 1) h h4⟩
    · exact (Memory.wfFrom_cons ..).2 ⟨hlo, ha, hb, h' ▸ h4⟩
    · exact (Memory.wfFrom_cons ..).2
        ⟨hlo, ha, hb, (Memory.wfFrom_cons ..).2 ⟨by omega, h2, h3, h4⟩⟩

theorem Memory.wfFrom_filter_ne (a : Nat) (m : Memory) (lo : Nat) (hm : Memory.wfFrom lo m = true) :
    Memory.wfFrom lo (m.filter (fun c => c.1 ≠ a)) = true := by
  induction m generalizing lo with
  | nil => rfl
  | cons c m ih =>
    obtain ⟨k, v⟩ := c
    obtain ⟨h1, h2, h3, h4⟩ := (Memory.wfFrom_cons ..).1 hm
    by_cases hk : k = a
    · rw [List.filter_cons_of_neg (by simp [hk])]
      exact Memory.wfFrom_mono _ (by omega) (ih (k + 1) h4)
    · rw [List.filter_cons_of_pos (by simp [hk])]
      exact (Memory.wfFrom_cons ..).2 ⟨h1, h2, h3, ih (k + 1) h4⟩

/-- A write at an address of the address space keeps the canonical form. -/
theorem Memory.wf_write (m : Memory) (a : Addr) (b : Byte) (hm : Memory.wf m = true) :
    Memory.wf (Memory.write m a.toNat b) = true := by
  unfold Memory.write
  split_ifs with hb
  · exact Memory.wfFrom_filter_ne _ _ _ hm
  · exact Memory.wfFrom_put _ _ (Nat.zero_le _) a.isLt hb hm

theorem Memory.read_eq_unlisted_of_lt (m : Memory) (lo x : Nat) (hm : Memory.wfFrom lo m = true) (hx : x < lo) :
    Memory.read m x = Memory.unlisted := by
  induction m generalizing lo with
  | nil => rfl
  | cons c m ih =>
    obtain ⟨k, v⟩ := c
    obtain ⟨h1, -, -, h4⟩ := (Memory.wfFrom_cons ..).1 hm
    rw [Memory.read_cons, if_neg (by omega)]
    exact ih (k + 1) h4 (by omega)

/-! ### A wide access -/

theorem Memory.wf_store (m : Memory) (a : Addr) (v : BitVec 32) (n : Nat) (hm : Memory.wf m = true) :
    Memory.wf (Memory.store m a v n) = true := by
  induction n with
  | zero => exact hm
  | succ n ih => exact Memory.wf_write _ _ _ ih

/-- Byte `k` of a store of `n` bytes lies `k` bytes on from its address; every other byte is kept. -/
theorem Memory.read_store (m : Memory) (a : Addr) (v : BitVec 32) (n : Nat) (hn : n < 2 ^ 32) (x : Addr) :
    Memory.read (Memory.store m a v n) x.toNat =
      if (x - a).toNat < n then v.extractLsb' (8 * (x - a).toNat) 8 else Memory.read m x.toNat := by
  induction n with
  | zero => simp [Memory.store]
  | succ n ih =>
    have hx : x.toNat = (a + BitVec.ofNat 32 n).toNat ↔ (x - a).toNat = n := by
      have := x.isLt
      have := a.isLt
      simp only [BitVec.toNat_add, BitVec.toNat_sub, BitVec.toNat_ofNat]
      omega
    rw [Memory.store, Memory.read_write, ih (by omega)]
    by_cases h : (x - a).toNat = n
    · rw [if_pos (hx.2 h), if_pos (by omega), h]
    · rw [if_neg (fun e => h (hx.1 e))]
      split_ifs <;> first | rfl | omega

/-- A load has zeros above its bytes. -/
theorem Memory.load_high (m : Memory) (a : Addr) (n i : Nat) (hi : 8 * n ≤ i) :
    (Memory.load m a n).getLsbD i = false := by
  induction n generalizing i with
  | zero => simp [Memory.load]
  | succ n ih =>
    simp only [Memory.load, BitVec.getLsbD_or, BitVec.getLsbD_shiftLeft, BitVec.getLsbD_setWidth]
    rw [ih i (by omega), BitVec.getLsbD_of_ge _ (i - 8 * n) (by omega)]
    simp

/-- Byte `k` of a load is the byte `k` bytes on from its address. -/
theorem Memory.extract_load (m : Memory) (a : Addr) (n k : Nat) (hk : k < n) (hn : n ≤ 4) :
    (Memory.load m a n).extractLsb' (8 * k) 8 = Memory.read m (a + BitVec.ofNat 32 k).toNat := by
  induction n with
  | zero => omega
  | succ n ih =>
    ext i hi
    simp only [Memory.load, BitVec.getElem_extractLsb', BitVec.getLsbD_or, BitVec.getLsbD_shiftLeft,
      BitVec.getLsbD_setWidth]
    by_cases h : k = n
    · subst h
      rw [Memory.load_high m a k (8 * k + i) (by omega)]
      have h1 : 8 * k + i < 32 := by omega
      have h2 : 8 * k + i - 8 * k = i := by omega
      simp [h1, h2, BitVec.getLsbD_eq_getElem hi, show i < 32 by omega]
    · have e := ih (by omega) (by omega)
      have e' : (Memory.load m a n).getLsbD (8 * k + i) =
          (Memory.read m (a + BitVec.ofNat 32 k).toNat).getLsbD i := by
        rw [← e, BitVec.getLsbD_extractLsb']; simp [hi]
      rw [e', BitVec.getLsbD_eq_getElem hi]
      simp [show 8 * k + i < 8 * n by omega]

/-- A load sees nothing but the bytes it covers. -/
theorem Memory.load_congr {m m' : Memory} (a : Addr) (n : Nat)
    (h : ∀ k < n, Memory.read m (a + BitVec.ofNat 32 k).toNat = Memory.read m' (a + BitVec.ofNat 32 k).toNat) :
    Memory.load m a n = Memory.load m' a n := by
  induction n with
  | zero => rfl
  | succ n ih => rw [Memory.load, Memory.load, ih (fun k hk => h k (by omega)), h n (by omega)]

/-- A cell read from memory is its attribute byte above its character byte. -/
theorem Memory.load_two (m : Memory) (a : Addr) :
    (Memory.load m a 2).setWidth 16 = Memory.read m (a + 1#32).toNat ++ Memory.read m a.toNat := by
  have h0 := Memory.extract_load m a 2 0 (by omega) (by omega)
  have h1 := Memory.extract_load m a 2 1 (by omega) (by omega)
  rw [show a + BitVec.ofNat 32 0 = a by simp] at h0
  rw [show BitVec.ofNat 32 1 = 1#32 from rfl] at h1
  rw [← h0, ← h1]
  apply BitVec.eq_of_getLsbD_eq
  intro i hi
  rw [BitVec.getLsbD_append, BitVec.getLsbD_setWidth]
  by_cases h : i < 8
  · simp [h, hi]
  · have h1 : i - 8 < 8 := by omega
    have h2 : 8 + (i - 8) = i := by omega
    simp [h, hi, h1, h2]

end Sys2Proof.Machine
end

