-- ==== Sys2Proof/Laws/Port.lean ====
section
/-! SUPPORT. What the accesses of the memory master port do: one transfer, the mover's loops, the cell writes;
for each, the byte at every address afterwards. -/

namespace Sys2Proof.Machine

/-! ### One access -/

@[simp] theorem MemPort.memRead_mem (p : MemPort) (a : Addr) (w : Width) : (p.memRead a w).mem = p.mem := rfl
@[simp] theorem MemPort.memRead_byte (p : MemPort) (a x : Addr) (w : Width) : (p.memRead a w).byte x = p.byte x := rfl

theorem Width.bytes_le (w : Width) : w.bytes ≤ 4 := by cases w <;> decide

/-- The byte at every address after a write. -/
theorem MemPort.byte_memWrite (p : MemPort) (a : Addr) (w : Width) (v : BitVec 32) (x : Addr) :
    (p.memWrite a w v).byte x =
      if (x - a).toNat < w.bytes then v.extractLsb' (8 * (x - a).toNat) 8 else p.byte x :=
  Memory.read_store _ _ _ _ (by have := w.bytes_le; omega) _

/-- A transfer moves the bytes of one access, all read before any is written. -/
theorem MemPort.byte_transfer (p : MemPort) (dst src : Addr) (w : Width) (x : Addr) :
    (p.transfer dst src w).byte x =
      if (x - dst).toNat < w.bytes then p.byte (src + (x - dst)) else p.byte x := by
  rw [MemPort.transfer, MemPort.byte_memWrite, MemPort.memRead_byte]
  split_ifs with h
  · rw [MemPort.value, Memory.extract_load _ _ _ _ h w.bytes_le, BitVec.ofNat_toNat, BitVec.setWidth_eq]
    rfl
  · rfl

/-- A cell write sets the character byte and the attribute byte above it (`20_memory.md` R53). -/
theorem MemPort.byte_writeCell (p : MemPort) (a : Addr) (v : CellValue) (x : Addr) :
    (p.writeCell a v).byte x =
      if (x - a).toNat < 2 then v.extractLsb' (8 * (x - a).toNat) 8 else p.byte x := by
  rw [MemPort.writeCell, MemPort.byte_memWrite]
  simp only [Width.bytes]
  refine if_congr Iff.rfl ?_ rfl
  apply BitVec.eq_of_getLsbD_eq
  intro i hi
  rw [BitVec.getLsbD_extractLsb', BitVec.getLsbD_extractLsb', BitVec.getLsbD_setWidth]
  by_cases h : 8 * (x - a).toNat + i < 32
  · simp only [h, decide_true, Bool.true_and]
  · rw [BitVec.getLsbD_of_ge v _ (by omega), Bool.and_false]

/-! ### Upward copies

`CopiedTo p dst src m q` says that `q` is `p` after the first `m` bytes were copied upward. A source byte that
an earlier write of the same copy has replaced is read as replaced, so the first `dst - src` bytes of the
source repeat (`40_bulk_mover.md` R111); where the regions do not overlap that way, `j % d = j`. -/

def CopiedTo (p : MemPort) (dst src : Addr) (m : Nat) (q : MemPort) : Prop :=
  ∀ x, q.byte x =
    if (x - dst).toNat < m then p.byte (src + BitVec.ofNat 32 ((x - dst).toNat % (dst - src).toNat)) else p.byte x

theorem CopiedTo.refl (p : MemPort) (dst src : Addr) : CopiedTo p dst src 0 p := fun x => by simp

/-- One more transfer of `w` bytes. It must not read a byte it is itself to write, in the same access, lower
down: `d` is 0, or no smaller than the access, or the copy ends before it reaches the source again. -/
theorem CopiedTo.transfer {p q : MemPort} {dst src : Addr} {m : Nat} (w : Width)
    (h : CopiedTo p dst src m q) (hm : m + w.bytes ≤ 2 ^ 32)
    (hd : (dst - src).toNat = 0 ∨ w.bytes ≤ (dst - src).toNat ∨ m + w.bytes ≤ (dst - src).toNat) :
    CopiedTo p dst src (m + w.bytes) (q.transfer (dst + BitVec.ofNat 32 m) (src + BitVec.ofNat 32 m) w) := by
  intro x
  have hb := w.bytes_le
  have hxl := (x - dst).isLt
  have hdl := (dst - src).isLt
  have hj : (x - (dst + BitVec.ofNat 32 m)).toNat = if m ≤ (x - dst).toNat then (x - dst).toNat - m
      else (x - dst).toNat + 2 ^ 32 - m := by
    rw [← BitVec.sub_sub, BitVec.toNat_sub, BitVec.toNat_ofNat]
    split_ifs <;> omega
  rw [MemPort.byte_transfer, hj]
  have hsrc : src + BitVec.ofNat 32 m + (x - (dst + BitVec.ofNat 32 m)) = src + (x - dst) := by ring
  rw [hsrc, h (src + (x - dst)), h x]
  have hs : (src + (x - dst) - dst).toNat = if (dst - src).toNat ≤ (x - dst).toNat
      then (x - dst).toNat - (dst - src).toNat
      else (x - dst).toNat + 2 ^ 32 - (dst - src).toNat := by
    have e : src + (x - dst) - dst = (x - dst) - (dst - src) := by ring
    rw [e, BitVec.toNat_sub]
    split_ifs <;> omega
  rw [hs]
  generalize hjv : (x - dst).toNat = j at *
  generalize hdv : (dst - src).toNat = d at *
  have hx : src + (x - dst) = src + BitVec.ofNat 32 j := by
    rw [← hjv, BitVec.ofNat_toNat, BitVec.setWidth_eq]
  rw [hx]
  by_cases hlt : j < m
  · rw [if_pos hlt, if_neg, if_pos (by omega)]
    split_ifs <;> omega
  · by_cases hin : j < m + w.bytes
    · rw [if_pos (by split_ifs <;> omega), if_pos hin]
      by_cases hdj : d ≤ j
      · rw [if_pos hdj]
        by_cases hd0 : d = 0
        · rw [if_neg (by omega), hd0, Nat.mod_zero]
        · rw [if_pos (by omega), Nat.mod_eq_sub_mod hdj]
      · rw [if_neg hdj, if_neg (by omega), Nat.mod_eq_of_lt (by omega)]
    · rw [if_neg (by split_ifs <;> omega), if_neg hlt, if_neg hin]

/-- COPY's loop, for every operand (R111). -/
theorem MemPort.byte_copyUp (p : MemPort) (dst src : Addr) (n : Nat) (hn : n ≤ 2 ^ 32) :
    CopiedTo p dst src n (p.copyUp dst src n) := by
  induction n with
  | zero => exact CopiedTo.refl p dst src
  | succ n ih =>
    have := CopiedTo.transfer .byte (ih (by omega)) (by simpa [Width.bytes] using hn)
      (by simp only [Width.bytes]; omega)
    simpa [MemPort.copyUp, forUp, Width.bytes] using this

/-- WCOPY's loops, unless the destination lies 1 to 3 bytes above the source and inside it (R113, R114). -/
theorem MemPort.byte_copyWords (p : MemPort) (dst src : Addr) (n : Nat) (hn : n ≤ 2 ^ 32)
    (hd : (dst - src).toNat = 0 ∨ 4 ≤ (dst - src).toNat ∨ n ≤ (dst - src).toNat) :
    CopiedTo p dst src n (p.copyWords dst src n) := by
  have words : ∀ q, 4 * q ≤ n → CopiedTo p dst src (4 * q)
      (forUp (fun k q => q.transfer (dst + BitVec.ofNat 32 (WORD_BYTES * k))
        (src + BitVec.ofNat 32 (WORD_BYTES * k)) .word) q p) := by
    intro q
    induction q with
    | zero => intro _; exact CopiedTo.refl p dst src
    | succ q ih =>
      intro hq
      have := CopiedTo.transfer .word (ih (by omega)) (by simp only [Width.bytes]; omega)
        (by simp only [Width.bytes]; omega)
      simpa [forUp, Width.bytes, Nat.mul_add] using this
  have bytes : ∀ r, 4 * (n / 4) + r ≤ n → CopiedTo p dst src (4 * (n / 4) + r)
      (forUp (fun j q => q.transfer (dst + BitVec.ofNat 32 (WORD_BYTES * (n / WORD_BYTES) + j))
        (src + BitVec.ofNat 32 (WORD_BYTES * (n / WORD_BYTES) + j)) .byte) r
        (forUp (fun k q => q.transfer (dst + BitVec.ofNat 32 (WORD_BYTES * k))
          (src + BitVec.ofNat 32 (WORD_BYTES * k)) .word) (n / WORD_BYTES) p)) := by
    intro r
    induction r with
    | zero => intro _; exact words _ (by omega)
    | succ r ih =>
      intro hr
      have := CopiedTo.transfer .byte (ih (by omega)) (by simp only [Width.bytes]; omega)
        (by simp only [Width.bytes]; omega)
      simpa only [forUp, Width.bytes, Nat.add_assoc] using this
  have := bytes (n % 4) (by omega)
  rwa [Nat.div_add_mod] at this

/-- Where the copy does not read a byte it has replaced, the result is the snapshot of the source (R114). -/
theorem CopiedTo.snapshot {p q : MemPort} {dst src : Addr} {n : Nat} (h : CopiedTo p dst src n q)
    (hd : (dst - src).toNat = 0 ∨ n ≤ (dst - src).toNat) (x : Addr) :
    q.byte x = if (x - dst).toNat < n then p.byte (src + (x - dst)) else p.byte x := by
  rw [h x]
  split_ifs with hx
  · rw [show (x - dst).toNat % (dst - src).toNat = (x - dst).toNat by
      rcases hd with hd | hd
      · rw [hd, Nat.mod_zero]
      · exact Nat.mod_eq_of_lt (by omega), BitVec.ofNat_toNat, BitVec.setWidth_eq]
  · rfl

/-! ### Copies in words

`ReplacedTo p dst src chunk m q` says what the first `m` bytes of an upward copy hold when byte `j` is read
together with the other bytes of its chunk, which starts at `chunk j`: the byte of the destination that an
earlier chunk had put in the place of the source byte, or the source's old byte (`40_bulk_mover.md` R113). -/

def ReplacedTo (p : MemPort) (dst src : Addr) (chunk : Nat → Nat) (m : Nat) (q : MemPort) : Prop :=
  (∀ j < m, q.byte (dst + BitVec.ofNat 32 j) =
    if 0 < (dst - src).toNat ∧ (dst - src).toNat ≤ j ∧ j - (dst - src).toNat < chunk j then
      q.byte (dst + BitVec.ofNat 32 (j - (dst - src).toNat))
    else p.byte (src + BitVec.ofNat 32 j)) ∧
  (∀ x : Addr, m ≤ (x - dst).toNat → q.byte x = p.byte x)

theorem ReplacedTo.refl (p : MemPort) (dst src : Addr) (chunk : Nat → Nat) : ReplacedTo p dst src chunk 0 p :=
  ⟨fun _ h => absurd h (Nat.not_lt_zero _), fun _ _ => rfl⟩

theorem toNat_offset (a : Addr) (j : Nat) (hj : j < 2 ^ 32) : (a + BitVec.ofNat 32 j - a).toNat = j := by
  rw [show a + BitVec.ofNat 32 j - a = BitVec.ofNat 32 j by ring, BitVec.toNat_ofNat, Nat.mod_eq_of_lt hj]

/-- One more chunk, of the `w` bytes from `m`. -/
theorem ReplacedTo.transfer {p q : MemPort} {dst src : Addr} {chunk : Nat → Nat} {m : Nat} (w : Width)
    (h : ReplacedTo p dst src chunk m q) (hm : m + w.bytes ≤ 2 ^ 32)
    (hc : ∀ j, m ≤ j → j < m + w.bytes → chunk j = m) :
    ReplacedTo p dst src chunk (m + w.bytes)
      (q.transfer (dst + BitVec.ofNat 32 m) (src + BitVec.ofNat 32 m) w) := by
  have hb := w.bytes_le
  have hdl := (dst - src).isLt
  have hq : ∀ x : Addr, (q.transfer (dst + BitVec.ofNat 32 m) (src + BitVec.ofNat 32 m) w).byte x =
      if m ≤ (x - dst).toNat ∧ (x - dst).toNat < m + w.bytes then q.byte (src + (x - dst)) else q.byte x := by
    intro x
    have hxl := (x - dst).isLt
    have hj : (x - (dst + BitVec.ofNat 32 m)).toNat = if m ≤ (x - dst).toNat then (x - dst).toNat - m
        else (x - dst).toNat + 2 ^ 32 - m := by
      rw [← BitVec.sub_sub, BitVec.toNat_sub, BitVec.toNat_ofNat]
      split_ifs <;> omega
    rw [MemPort.byte_transfer, hj,
      show src + BitVec.ofNat 32 m + (x - (dst + BitVec.ofNat 32 m)) = src + (x - dst) by ring]
    refine if_congr ?_ rfl rfl
    split_ifs <;> omega
  have low : ∀ j < m, (q.transfer (dst + BitVec.ofNat 32 m) (src + BitVec.ofNat 32 m) w).byte
      (dst + BitVec.ofNat 32 j) = q.byte (dst + BitVec.ofNat 32 j) := by
    intro j hj
    rw [hq, toNat_offset _ _ (by omega), if_neg (by omega)]
  refine ⟨fun j hj => ?_, fun x hx => ?_⟩
  · by_cases hjm : j < m
    · rw [low j hjm, h.1 j hjm]
      split_ifs with hcond
      · rw [low _ (by omega)]
      · rfl
    · rw [hc j (by omega) hj, hq, toNat_offset _ _ (by omega), if_pos (by omega),
        show dst + BitVec.ofNat 32 j - dst = BitVec.ofNat 32 j by ring]
      have hsrc : (src + BitVec.ofNat 32 j - dst).toNat =
          if (dst - src).toNat ≤ j then j - (dst - src).toNat else j + 2 ^ 32 - (dst - src).toNat := by
        rw [show src + BitVec.ofNat 32 j - dst = BitVec.ofNat 32 j - (dst - src) by ring, BitVec.toNat_sub,
          BitVec.toNat_ofNat]
        split_ifs <;> omega
      split_ifs with hcond
      · rw [low _ hcond.2.2]
        congr 1
        have e : BitVec.ofNat 32 (j - (dst - src).toNat) = BitVec.ofNat 32 j - (dst - src) := by
          apply BitVec.eq_of_toNat_eq
          rw [BitVec.toNat_sub (BitVec.ofNat 32 j), BitVec.toNat_ofNat, BitVec.toNat_ofNat]
          omega
        rw [e]
        ring
      · refine h.2 _ ?_
        rw [hsrc]
        split_ifs <;> omega
  · rw [hq, if_neg (by omega), h.2 _ (by omega)]

/-- The chunk of byte `i` in a WCOPY of `n` bytes: the word it lies in, or itself in the tail (R113). -/
def wordChunk (n i : Nat) : Nat := if i < 4 * (n / 4) then 4 * (i / 4) else i

/-- WCOPY's loops, for every operand (R113). -/
theorem MemPort.replaced_copyWords (p : MemPort) (dst src : Addr) (n : Nat) (hn : n ≤ 2 ^ 32) :
    ReplacedTo p dst src (wordChunk n) n (p.copyWords dst src n) := by
  have words : ∀ q, 4 * q ≤ n → ReplacedTo p dst src (wordChunk n) (4 * q)
      (forUp (fun k q => q.transfer (dst + BitVec.ofNat 32 (WORD_BYTES * k))
        (src + BitVec.ofNat 32 (WORD_BYTES * k)) .word) q p) := by
    intro q
    induction q with
    | zero => intro _; exact ReplacedTo.refl p dst src _
    | succ q ih =>
      intro hq
      have := ReplacedTo.transfer .word (ih (by omega)) (by simp only [Width.bytes]; omega) (by
        intro j h1 h2
        simp only [Width.bytes] at h2
        rw [wordChunk, if_pos (by omega)]
        omega)
      simpa [forUp, Width.bytes, Nat.mul_add] using this
  have bytes : ∀ r, 4 * (n / 4) + r ≤ n → ReplacedTo p dst src (wordChunk n) (4 * (n / 4) + r)
      (forUp (fun j q => q.transfer (dst + BitVec.ofNat 32 (WORD_BYTES * (n / WORD_BYTES) + j))
        (src + BitVec.ofNat 32 (WORD_BYTES * (n / WORD_BYTES) + j)) .byte) r
        (forUp (fun k q => q.transfer (dst + BitVec.ofNat 32 (WORD_BYTES * k))
          (src + BitVec.ofNat 32 (WORD_BYTES * k)) .word) (n / WORD_BYTES) p)) := by
    intro r
    induction r with
    | zero => intro _; exact words _ (by omega)
    | succ r ih =>
      intro hr
      have := ReplacedTo.transfer .byte (ih (by omega)) (by simp only [Width.bytes]; omega) (by
        intro j h1 h2
        simp only [Width.bytes] at h2
        rw [wordChunk, if_neg (by omega)]
        omega)
      simpa only [forUp, Width.bytes, Nat.add_assoc] using this
  have := bytes (n % 4) (by omega)
  rwa [Nat.div_add_mod] at this

/-! ### Downward copies -/

/-- MOVE's downward loop, for every operand (R112): where it reads a byte it has replaced, the last
`src - dst` bytes of the source repeat. -/
theorem MemPort.byte_copyDown (p : MemPort) (dst src : Addr) (n : Nat) (hn : n ≤ 2 ^ 32) (x : Addr) :
    (p.copyDown dst src n).byte x =
      if (x - dst).toNat < n then
        p.byte (src + BitVec.ofNat 32 (n - 1 - (n - 1 - (x - dst).toNat) % (src - dst).toNat))
      else p.byte x := by
  induction n generalizing p with
  | zero => simp [MemPort.copyDown, forDown]
  | succ n ih =>
    have hel := (src - dst).isLt
    have hjl := (x - dst).isLt
    have step : ∀ y : Addr, (p.transfer (dst + BitVec.ofNat 32 n) (src + BitVec.ofNat 32 n) .byte).byte y =
        if (y - dst).toNat = n then p.byte (src + BitVec.ofNat 32 n) else p.byte y := by
      intro y
      have hyl := (y - dst).isLt
      have hy : (y - (dst + BitVec.ofNat 32 n)).toNat < 1 ↔ (y - dst).toNat = n := by
        rw [← BitVec.sub_sub, BitVec.toNat_sub, BitVec.toNat_ofNat]
        omega
      rw [MemPort.byte_transfer]
      simp only [Width.bytes, hy]
      split_ifs with h
      · congr 1
        have : y - (dst + BitVec.ofNat 32 n) = 0#32 := by
          apply BitVec.eq_of_toNat_eq
          have := hy.2 h
          simp only [BitVec.toNat_ofNat] at *
          omega
        rw [this, BitVec.add_zero]
      · rfl
    have unfold : p.copyDown dst src (n + 1) =
        (p.transfer (dst + BitVec.ofNat 32 n) (src + BitVec.ofNat 32 n) .byte).copyDown dst src n := rfl
    rw [unfold, ih _ (by omega), step, step]
    have ts : ∀ m, m < n → ((src + BitVec.ofNat 32 m - dst).toNat = n ↔ m + (src - dst).toNat = n) := by
      intro m hm
      have e : src + BitVec.ofNat 32 m - dst = BitVec.ofNat 32 m + (src - dst) := by ring
      rw [e, BitVec.toNat_add, BitVec.toNat_ofNat]
      omega
    generalize (x - dst).toNat = j at *
    generalize (src - dst).toNat = e at *
    rcases Nat.lt_trichotomy j n with hj | hj | hj
    · have hm : n - 1 - (n - 1 - j) % e < n := by omega
      have hidx : n - (n - j) % e =
          if n - 1 - (n - 1 - j) % e + e = n then n else n - 1 - (n - 1 - j) % e := by
        have hr := Nat.mod_le (n - 1 - j) e
        have hsucc : n - j = n - 1 - j + 1 := by omega
        by_cases he : e = 0
        · subst he
          rw [Nat.mod_zero, Nat.mod_zero, if_neg (by omega)]
          omega
        · have hlt := Nat.mod_lt (n - 1 - j) (Nat.pos_of_ne_zero he)
          by_cases hlast : (n - 1 - j) % e + 1 = e
          · rw [if_pos (by omega), hsucc, ← Nat.mod_add_mod, hlast, Nat.mod_self, Nat.sub_zero]
          · rw [if_neg (by omega), hsucc, ← Nat.mod_add_mod, Nat.mod_eq_of_lt (by omega)]
            omega
      simp only [hj, if_true, ts _ hm, Nat.add_sub_cancel, hidx, Nat.lt_succ_of_lt hj]
      split_ifs <;> rfl
    · simp [hj]
    · rw [if_neg (by omega), if_neg (by omega), if_neg (by omega)]

/-! ### MOVE -/

theorem overlapsAbove_iff (dst src n : Addr) :
    overlapsAbove dst src n = true ↔ 0 < (dst - src).toNat ∧ (dst - src).toNat < n.toNat := by
  have : dst - src ≠ 0#32 ↔ 0 < (dst - src).toNat := by
    constructor
    · intro h
      apply Nat.pos_of_ne_zero
      intro h0
      exact h (BitVec.eq_of_toNat_eq (by simpa using h0))
    · intro h h0
      rw [h0] at h
      simp at h
  simp only [overlapsAbove, Bool.and_eq_true, bne_iff_ne, this, decide_eq_true_eq, BitVec.lt_def]

/-- MOVE leaves every byte outside its destination alone. -/
theorem MemPort.byte_move_outside (p : MemPort) (dst src n x : Addr) (hx : n.toNat ≤ (x - dst).toNat) :
    (p.move dst src n).byte x = p.byte x := by
  unfold MemPort.move
  split_ifs
  · rw [MemPort.byte_copyDown _ _ _ _ (by omega), if_neg (by omega)]
  · rw [MemPort.byte_copyUp p dst src n.toNat (by omega) x, if_neg (by omega)]

/-- MOVE gives the snapshot of the source for every `dst` and `src` when `n` is at most 2^31 (R115). -/
theorem MemPort.byte_move (p : MemPort) (dst src n x : Addr) (hn : n.toNat ≤ 2 ^ 31) :
    (p.move dst src n).byte x = if (x - dst).toNat < n.toNat then p.byte (src + (x - dst)) else p.byte x := by
  unfold MemPort.move
  split_ifs with ho hx hx
  · obtain ⟨h1, h2⟩ := (overlapsAbove_iff ..).1 ho
    have he : (src - dst).toNat = 2 ^ 32 - (dst - src).toNat := by
      have e : src - dst = -(dst - src) := by ring
      rw [e, BitVec.toNat_neg]
      omega
    rw [MemPort.byte_copyDown _ _ _ _ (by omega), if_pos hx, Nat.mod_eq_of_lt (by omega),
      show n.toNat - 1 - (n.toNat - 1 - (x - dst).toNat) = (x - dst).toNat by omega, BitVec.ofNat_toNat,
      BitVec.setWidth_eq]
  · rw [MemPort.byte_copyDown _ _ _ _ (by omega), if_neg hx]
  all_goals
    have h := mt (overlapsAbove_iff dst src n).2 ho
    rw [CopiedTo.snapshot (MemPort.byte_copyUp p dst src n.toNat (by omega)) (by omega)]
  · rw [if_pos hx]
  · rw [if_neg hx]

/-! ### Cell writes -/

/-- The cell writes of clear and scroll set cells `first` to `first + count - 1` and nothing else. -/
theorem MemPort.byte_fillCells (p : MemPort) (g : Config) (v : CellValue) (first count : Nat)
    (h : 2 * (first + count) ≤ 2 ^ 32) (x : Addr) :
    (p.fillCells g v first count).byte x =
      if 2 * first ≤ (x - g.gridBase).toNat ∧ (x - g.gridBase).toNat < 2 * (first + count) then
        v.extractLsb' (8 * ((x - g.gridBase).toNat % 2)) 8
      else p.byte x := by
  induction count with
  | zero => rw [if_neg (by omega)]; rfl
  | succ count ih =>
    have unfold : p.fillCells g v first (count + 1) =
        (p.fillCells g v first count).writeCell (g.cellAddrOf (first + count)) v := rfl
    have hl := (x - g.gridBase).isLt
    have hj : (x - g.cellAddrOf (first + count)).toNat =
        if 2 * (first + count) ≤ (x - g.gridBase).toNat then (x - g.gridBase).toNat - 2 * (first + count)
        else (x - g.gridBase).toNat + 2 ^ 32 - 2 * (first + count) := by
      rw [Config.cellAddrOf, ← BitVec.sub_sub, BitVec.toNat_sub, BitVec.toNat_ofNat]
      simp only [CELL_BYTES]
      split_ifs <;> omega
    rw [unfold, MemPort.byte_writeCell, ih (by omega), hj]
    generalize (x - g.gridBase).toNat = j at *
    by_cases h1 : 2 * (first + count) ≤ j ∧ j < 2 * (first + count) + 2
    · rw [if_pos h1.1, if_pos (by omega), if_pos (by omega)]
      congr 2; omega
    · rw [if_neg (by split_ifs <;> omega)]
      by_cases h2 : 2 * first ≤ j ∧ j < 2 * (first + count)
      · rw [if_pos h2, if_pos (by omega)]
      · rw [if_neg h2, if_neg (by omega)]

end Sys2Proof.Machine
end

