-- ==== Sys2Proof/Laws/Actions.lean ====
section
/-! SUPPORT. The accesses that each operation makes on the memory master port: which, in which order, and that
they account for all it does to memory. -/

namespace Sys2Proof.Machine

/-- What an access does on the port, without its data. -/
def Access.action (x : Access) : Action := (x.dir, x.addr, x.width)

/-- From port `p` to port `q` accesses with the actions `as` were made, and they account for the memory. -/
def Made (p q : MemPort) (as : List Action) : Prop :=
  ∃ new : List Access, q.log = new.reverse ++ p.log ∧ q.mem = replay new p.mem ∧ new.map Access.action = as

theorem Made.refl (p : MemPort) : Made p p [] := ⟨[], rfl, rfl, rfl⟩

theorem Made.trans {p q r : MemPort} {as bs : List Action} (h : Made p q as) (h' : Made q r bs) :
    Made p r (as ++ bs) := by
  obtain ⟨x, hx1, hx2, rfl⟩ := h
  obtain ⟨y, hy1, hy2, rfl⟩ := h'
  refine ⟨x ++ y, ?_, ?_, ?_⟩
  · simp [hy1, hx1]
  · rw [hy2, hx2, replay, replay, replay, List.foldl_append]
  · simp

theorem Made.memRead (p : MemPort) (a : Addr) (w : Width) : Made p (p.memRead a w) [(.read, a, w)] :=
  ⟨[⟨.read, a, w, p.value a w⟩], rfl, rfl, rfl⟩

theorem Made.memWrite (p : MemPort) (a : Addr) (w : Width) (v : BitVec 32) :
    Made p (p.memWrite a w v) [(.write, a, w)] :=
  ⟨[⟨.write, a, w, v⟩], rfl, rfl, rfl⟩

theorem Made.writeCell (p : MemPort) (a : Addr) (v : CellValue) : Made p (p.writeCell a v) [(.write, a, .half)] :=
  Made.memWrite ..

theorem Made.transfer (p : MemPort) (dst src : Addr) (w : Width) :
    Made p (p.transfer dst src w) [(.read, src, w), (.write, dst, w)] :=
  (Made.memRead p src w).trans (Made.memWrite ..)

/-- A loop makes its body's accesses, turn by turn. -/
theorem Made.forUp (body : Nat → MemPort → MemPort) (as : Nat → List Action)
    (h : ∀ i p, Made p (body i p) (as i)) (n : Nat) (p : MemPort) :
    Made p (forUp body n p) ((List.range n).flatMap as) := by
  induction n with
  | zero => exact Made.refl p
  | succ n ih =>
    rw [List.range_succ, List.flatMap_append, List.flatMap_singleton]
    exact ih.trans (h n _)

/-- A loop's last turns go on from its first ones. -/
theorem Made.forUp_tail (body : Nat → MemPort → MemPort) (as : Nat → List Action)
    (h : ∀ i p, Made p (body i p) (as i)) (m r : Nat) (p : MemPort) :
    Made (Machine.forUp body m p) (Machine.forUp body (m + r) p) ((List.range' m r).flatMap as) := by
  induction r with
  | zero => exact Made.refl _
  | succ r ih =>
    rw [List.range'_concat, List.flatMap_append, List.flatMap_singleton, Nat.one_mul]
    exact ih.trans (h (m + r) _)

theorem Made.forDown (body : Nat → MemPort → MemPort) (as : Nat → List Action)
    (h : ∀ i p, Made p (body i p) (as i)) (n : Nat) (p : MemPort) :
    Made p (forDown body n p) ((List.range n).reverse.flatMap as) := by
  induction n generalizing p with
  | zero => exact Made.refl p
  | succ n ih =>
    rw [List.range_succ, List.reverse_append, List.reverse_singleton, List.singleton_append, List.flatMap_cons]
    exact (h n p).trans (ih _)

theorem Made.copyUp (p : MemPort) (dst src : Addr) (n : Nat) : Made p (p.copyUp dst src n) (upActions dst src n) :=
  Made.forUp _ (transferActions dst src .byte) (fun _ q => Made.transfer q _ _ _) n p

theorem Made.copyDown (p : MemPort) (dst src : Addr) (n : Nat) :
    Made p (p.copyDown dst src n) (downActions dst src n) :=
  Made.forDown _ (transferActions dst src .byte) (fun _ q => Made.transfer q _ _ _) n p

theorem Made.move (p : MemPort) (dst src n : Addr) :
    Made p (p.move dst src n)
      (if 0 < (dst - src).toNat ∧ (dst - src).toNat < n.toNat
        then downActions dst src n.toNat else upActions dst src n.toNat) := by
  unfold MemPort.move
  by_cases h : overlapsAbove dst src n = true
  · rw [if_pos h, if_pos ((overlapsAbove_iff ..).1 h)]
    exact Made.copyDown ..
  · rw [if_neg h, if_neg (mt (overlapsAbove_iff ..).2 h)]
    exact Made.copyUp ..

theorem Made.copyWords (p : MemPort) (dst src : Addr) (n : Nat) :
    Made p (p.copyWords dst src n) (wordActions dst src n) :=
  (Made.forUp _ (fun k => transferActions dst src .word (4 * k)) (fun _ q => Made.transfer q _ _ _) _ p).trans
    (Made.forUp _ (fun j => transferActions dst src .byte (4 * (n / 4) + j)) (fun _ q => Made.transfer q _ _ _) _ _)

theorem Made.fillCells (p : MemPort) (g : Config) (v : CellValue) (first count : Nat) :
    Made p (p.fillCells g v first count) (fillActions g first count) := by
  have := Made.forUp (fun j q => q.writeCell (g.cellAddrOf (first + j)) v)
    (fun j => [(.write, g.gridBase + BitVec.ofNat 32 (2 * (first + j)), .half)])
    (fun _ q => Made.writeCell q _ _) count p
  rwa [← List.map_eq_flatMap] at this

/-! ### What a run of accesses keeps -/

theorem replay_wf (new : List Access) (m : Memory) (hm : Memory.wf m = true) : Memory.wf (replay new m) = true := by
  induction new generalizing m with
  | nil => exact hm
  | cons x xs ih =>
    refine ih _ ?_
    unfold Access.apply
    cases x.dir
    · exact hm
    · exact Memory.wf_store _ _ _ _ hm

theorem Made.wf {p q : MemPort} {as : List Action} (h : Made p q as) (hm : Memory.wf p.mem = true) :
    Memory.wf q.mem = true := by
  obtain ⟨new, -, h2, -⟩ := h
  rw [h2]
  exact replay_wf new p.mem hm

/-- The actions of a state whose port ran on from another's. -/
theorem Made.actions {s t : State} {as : List Action} (h : Made s.port t.port as) : t.actions = s.actions ++ as := by
  obtain ⟨new, h1, -, rfl⟩ := h
  simp [State.actions, h1, Access.action]

end Sys2Proof.Machine
end

