-- ==== Sys2Proof/Laws/Operands.lean ====
section
/-! SUPPORT. The laws of MemMap, of the parameters' constraints, of the cell addresses and of the cursor test. -/

namespace Sys2Proof.Machine

/-- A hole meets the `n` bytes from `a` exactly when it contains one of them. -/
theorem meets_iff (h : Hole) (a : Addr) (n : Nat) (hn : n ≤ 2 ^ 32) :
    h.meets a n = true ↔ ∃ i < n, h.contains (a + BitVec.ofNat 32 i) = true := by
  have hsub : ∀ i, a + BitVec.ofNat 32 i - h.base = BitVec.ofNat 32 i + (a - h.base) := fun i => by ring
  simp only [Hole.meets, Hole.contains, Bool.and_eq_true, Bool.or_eq_true, decide_eq_true_eq, hsub,
    BitVec.toNat_add, BitVec.toNat_ofNat]
  have h1 := (a - h.base).isLt
  have h2 : (h.base - a).toNat = (2 ^ 32 - (a - h.base).toNat) % 2 ^ 32 := by
    rw [show h.base - a = -(a - h.base) by ring, BitVec.toNat_neg]
  constructor
  · rintro ⟨⟨hn0, hs0⟩, he | he⟩
    · exact ⟨0, hn0, by simpa using he⟩
    · refine ⟨(h.base - a).toNat, he, ?_⟩
      rw [h2]
      omega
  · rintro ⟨i, hi, hc⟩
    refine ⟨⟨by omega, by omega⟩, ?_⟩
    omega

/-- The platform backs `n` bytes from `a` exactly when each of them is in MemMap (`20_memory.md` R52). -/
theorem backs_iff_mapped (g : Config) (a : Addr) (n : Nat) (hn : n ≤ 2 ^ 32) :
    g.backs a n = true ↔ ∀ i < n, g.mapped (a + BitVec.ofNat 32 i) = true := by
  simp only [Config.backs, Config.mapped, Bool.not_eq_true', List.any_eq_false, meets_iff _ _ _ hn]
  constructor
  · intro h i hi x hx hc
    exact h x hx ⟨i, hi, hc⟩
  · rintro h x hx ⟨i, hi, hc⟩
    exact h i hi x hx hc

/-- The constraints of `00_scope.md` R6, one by one. -/
theorem backs_one (g : Config) (a : Addr) : g.backs a 1 = g.mapped a := by
  rw [Bool.eq_iff_iff, backs_iff_mapped g a 1 (by omega)]
  simp

theorem valid_iff (g : Config) : g.valid = true ↔
    g.gridBase.toNat % 2 = 0 ∧ g.gridBase.toNat + 4000 ≤ 2 ^ 32 ∧ [g.bel, g.bs, g.lf, g.ff, g.cr].Nodup ∧
      g.isControl g.space = false ∧ g.backs g.gridBase 4000 = true := by
  simp only [Config.valid, Bool.and_eq_true, beq_iff_eq, decide_eq_true_eq, Bool.not_eq_true', GRID_BYTES]
  tauto

theorem isControl_iff (g : Config) (ch : Byte) : g.isControl ch = true ↔
    ch = g.bel ∨ ch = g.bs ∨ ch = g.ff ∨ ch = g.lf ∨ ch = g.cr := by
  simp [Config.isControl, or_assoc]

theorem cursorInRange_iff (s : State) :
    s.cursorInRange = true ↔ s.col.toNat < 80 ∧ s.row.toNat < 25 := by
  simp [State.cursorInRange]

/-- R141: the cell address from the cursor, as an offset into the grid window. -/
theorem cellAddr_eq (g : Config) (col row : Byte) :
    g.cellAddr col row = g.gridBase + BitVec.ofNat 32 (160 * row.toNat + 2 * col.toNat) := by
  rw [Config.cellAddr, Config.cellAddrOf, cellIndex]
  congr 2
  simp only [CELL_BYTES, WIDTH]
  omega

/-- A byte of cell `i` lies `2 i` or `2 i + 1` bytes into the grid window. -/
theorem toNat_cellAddrOf_sub (g : Config) (i : Nat) (hi : i < 2000) :
    (g.cellAddrOf i - g.gridBase).toNat = 2 * i := by
  rw [Config.cellAddrOf, show g.gridBase + BitVec.ofNat 32 (CELL_BYTES * i) - g.gridBase =
    BitVec.ofNat 32 (CELL_BYTES * i) by ring, BitVec.toNat_ofNat]
  simp only [CELL_BYTES]
  omega

theorem toNat_cellAddrOf_succ_sub (g : Config) (i : Nat) (hi : i < 2000) :
    (g.cellAddrOf i + 1#32 - g.gridBase).toNat = 2 * i + 1 := by
  rw [Config.cellAddrOf, show g.gridBase + BitVec.ofNat 32 (CELL_BYTES * i) + 1#32 - g.gridBase =
    BitVec.ofNat 32 (CELL_BYTES * i) + 1#32 by ring, BitVec.toNat_add, BitVec.toNat_ofNat, BitVec.toNat_ofNat]
  simp only [CELL_BYTES]
  omega

theorem encodeCell_low (ch attr : Byte) : (encodeCell ch attr).extractLsb' 0 8 = ch := by
  apply BitVec.eq_of_getLsbD_eq
  intro i hi
  rw [encodeCell, BitVec.getLsbD_extractLsb', BitVec.getLsbD_append]
  simp [hi]

theorem encodeCell_high (ch attr : Byte) : (encodeCell ch attr).extractLsb' 8 8 = attr := by
  apply BitVec.eq_of_getLsbD_eq
  intro i hi
  rw [encodeCell, BitVec.getLsbD_extractLsb', BitVec.getLsbD_append]
  simp [hi]

/-- A cell value is its two bytes (`41_cell_encoder.md` R132). -/
theorem encodeCell_bytes (v : CellValue) : v.extractLsb' 8 8 ++ v.extractLsb' 0 8 = v := by
  apply BitVec.eq_of_getLsbD_eq
  intro i hi
  rw [BitVec.getLsbD_append]
  by_cases h : i < 8
  · simp [h]
  · have h1 : i - 8 < 8 := by omega
    have h2 : 8 + (i - 8) = i := by omega
    simp [h, h1, h2]

end Sys2Proof.Machine
end

