-- ==== Sys2Proof/Laws/State.lean ====
section
/-! SUPPORT. What each update of the state leaves in each field: one lemma per field per update, true by
`rfl`. -/

namespace Sys2Proof.Machine

/-! ### `State.enter` -/

@[simp] theorem State.enter_col (s : State) (p : Phase) : (s.enter p).col = s.col := rfl
@[simp] theorem State.enter_row (s : State) (p : Phase) : (s.enter p).row = s.row := rfl
@[simp] theorem State.enter_attr (s : State) (p : Phase) : (s.enter p).attr = s.attr := rfl
@[simp] theorem State.enter_inited (s : State) (p : Phase) : (s.enter p).inited = s.inited := rfl
@[simp] theorem State.enter_fault (s : State) (p : Phase) : (s.enter p).fault = s.fault := rfl
@[simp] theorem State.enter_fcode (s : State) (p : Phase) : (s.enter p).fcode = s.fcode := rfl
@[simp] theorem State.enter_phase (s : State) (p : Phase) : (s.enter p).phase = p := rfl
@[simp] theorem State.enter_port (s : State) (p : Phase) : (s.enter p).port = s.port := rfl
@[simp] theorem State.enter_phases (s : State) (p : Phase) : (s.enter p).phases = p :: s.phases := rfl
@[simp] theorem State.enter_cmds (s : State) (p : Phase) : (s.enter p).cmds = s.cmds := rfl
@[simp] theorem State.enter_rsp (s : State) (p : Phase) : (s.enter p).rsp = s.rsp := rfl
@[simp] theorem State.enter_cfg (s : State) (p : Phase) : (s.enter p).cfg = s.cfg := rfl

/-! ### `State.complete` -/

@[simp] theorem State.complete_col (s : State) (v : CellValue) : (s.complete v).col = s.col := rfl
@[simp] theorem State.complete_row (s : State) (v : CellValue) : (s.complete v).row = s.row := rfl
@[simp] theorem State.complete_attr (s : State) (v : CellValue) : (s.complete v).attr = s.attr := rfl
@[simp] theorem State.complete_inited (s : State) (v : CellValue) : (s.complete v).inited = s.inited := rfl
@[simp] theorem State.complete_fault (s : State) (v : CellValue) : (s.complete v).fault = s.fault := rfl
@[simp] theorem State.complete_fcode (s : State) (v : CellValue) : (s.complete v).fcode = s.fcode := rfl
@[simp] theorem State.complete_phase (s : State) (v : CellValue) : (s.complete v).phase = .idle := rfl
@[simp] theorem State.complete_port (s : State) (v : CellValue) : (s.complete v).port = s.port := rfl
@[simp] theorem State.complete_phases (s : State) (v : CellValue) : (s.complete v).phases = s.phases := rfl
@[simp] theorem State.complete_cmds (s : State) (v : CellValue) : (s.complete v).cmds = s.cmds := rfl
@[simp] theorem State.complete_rsp (s : State) (v : CellValue) : (s.complete v).rsp = some ⟨true, v⟩ := rfl
@[simp] theorem State.complete_cfg (s : State) (v : CellValue) : (s.complete v).cfg = s.cfg := rfl

/-! ### `State.raise` -/

@[simp] theorem State.raise_col (s : State) (c : Cause) : (s.raise c).col = s.col := rfl
@[simp] theorem State.raise_row (s : State) (c : Cause) : (s.raise c).row = s.row := rfl
@[simp] theorem State.raise_attr (s : State) (c : Cause) : (s.raise c).attr = s.attr := rfl
@[simp] theorem State.raise_inited (s : State) (c : Cause) : (s.raise c).inited = s.inited := rfl
@[simp] theorem State.raise_fault (s : State) (c : Cause) : (s.raise c).fault = true := rfl
@[simp] theorem State.raise_fcode (s : State) (c : Cause) : (s.raise c).fcode = c.code := rfl
@[simp] theorem State.raise_phase (s : State) (c : Cause) : (s.raise c).phase = .idle := rfl
@[simp] theorem State.raise_port (s : State) (c : Cause) : (s.raise c).port = s.port := rfl
@[simp] theorem State.raise_phases (s : State) (c : Cause) : (s.raise c).phases = s.phases := rfl
@[simp] theorem State.raise_cmds (s : State) (c : Cause) : (s.raise c).cmds = s.cmds := rfl
@[simp] theorem State.raise_rsp (s : State) (c : Cause) : (s.raise c).rsp = some ⟨false, 0x0000#16⟩ := rfl
@[simp] theorem State.raise_cfg (s : State) (c : Cause) : (s.raise c).cfg = s.cfg := rfl

/-! ### `State.setCursor` -/

@[simp] theorem State.setCursor_col (s : State) (c r : Byte) : (s.setCursor c r).col = c := rfl
@[simp] theorem State.setCursor_row (s : State) (c r : Byte) : (s.setCursor c r).row = r := rfl
@[simp] theorem State.setCursor_attr (s : State) (c r : Byte) : (s.setCursor c r).attr = s.attr := rfl
@[simp] theorem State.setCursor_inited (s : State) (c r : Byte) : (s.setCursor c r).inited = s.inited := rfl
@[simp] theorem State.setCursor_fault (s : State) (c r : Byte) : (s.setCursor c r).fault = s.fault := rfl
@[simp] theorem State.setCursor_fcode (s : State) (c r : Byte) : (s.setCursor c r).fcode = s.fcode := rfl
@[simp] theorem State.setCursor_phase (s : State) (c r : Byte) : (s.setCursor c r).phase = s.phase := rfl
@[simp] theorem State.setCursor_port (s : State) (c r : Byte) : (s.setCursor c r).port = s.port := rfl
@[simp] theorem State.setCursor_phases (s : State) (c r : Byte) : (s.setCursor c r).phases = s.phases := rfl
@[simp] theorem State.setCursor_cmds (s : State) (c r : Byte) : (s.setCursor c r).cmds = s.cmds := rfl
@[simp] theorem State.setCursor_rsp (s : State) (c r : Byte) : (s.setCursor c r).rsp = s.rsp := rfl
@[simp] theorem State.setCursor_cfg (s : State) (c r : Byte) : (s.setCursor c r).cfg = s.cfg := rfl

/-! ### `State.setAttr` -/

@[simp] theorem State.setAttr_col (s : State) (a : Byte) : (s.setAttr a).col = s.col := rfl
@[simp] theorem State.setAttr_row (s : State) (a : Byte) : (s.setAttr a).row = s.row := rfl
@[simp] theorem State.setAttr_attr (s : State) (a : Byte) : (s.setAttr a).attr = a := rfl
@[simp] theorem State.setAttr_inited (s : State) (a : Byte) : (s.setAttr a).inited = s.inited := rfl
@[simp] theorem State.setAttr_fault (s : State) (a : Byte) : (s.setAttr a).fault = s.fault := rfl
@[simp] theorem State.setAttr_fcode (s : State) (a : Byte) : (s.setAttr a).fcode = s.fcode := rfl
@[simp] theorem State.setAttr_phase (s : State) (a : Byte) : (s.setAttr a).phase = s.phase := rfl
@[simp] theorem State.setAttr_port (s : State) (a : Byte) : (s.setAttr a).port = s.port := rfl
@[simp] theorem State.setAttr_phases (s : State) (a : Byte) : (s.setAttr a).phases = s.phases := rfl
@[simp] theorem State.setAttr_cmds (s : State) (a : Byte) : (s.setAttr a).cmds = s.cmds := rfl
@[simp] theorem State.setAttr_rsp (s : State) (a : Byte) : (s.setAttr a).rsp = s.rsp := rfl
@[simp] theorem State.setAttr_cfg (s : State) (a : Byte) : (s.setAttr a).cfg = s.cfg := rfl

/-! ### `State.setInited` -/

@[simp] theorem State.setInited_col (s : State) : (s.setInited).col = s.col := rfl
@[simp] theorem State.setInited_row (s : State) : (s.setInited).row = s.row := rfl
@[simp] theorem State.setInited_attr (s : State) : (s.setInited).attr = s.attr := rfl
@[simp] theorem State.setInited_inited (s : State) : (s.setInited).inited = true := rfl
@[simp] theorem State.setInited_fault (s : State) : (s.setInited).fault = s.fault := rfl
@[simp] theorem State.setInited_fcode (s : State) : (s.setInited).fcode = s.fcode := rfl
@[simp] theorem State.setInited_phase (s : State) : (s.setInited).phase = s.phase := rfl
@[simp] theorem State.setInited_port (s : State) : (s.setInited).port = s.port := rfl
@[simp] theorem State.setInited_phases (s : State) : (s.setInited).phases = s.phases := rfl
@[simp] theorem State.setInited_cmds (s : State) : (s.setInited).cmds = s.cmds := rfl
@[simp] theorem State.setInited_rsp (s : State) : (s.setInited).rsp = s.rsp := rfl
@[simp] theorem State.setInited_cfg (s : State) : (s.setInited).cfg = s.cfg := rfl

/-! ### `State.onPort` -/

@[simp] theorem State.onPort_col (s : State) (f : MemPort → MemPort) : (s.onPort f).col = s.col := rfl
@[simp] theorem State.onPort_row (s : State) (f : MemPort → MemPort) : (s.onPort f).row = s.row := rfl
@[simp] theorem State.onPort_attr (s : State) (f : MemPort → MemPort) : (s.onPort f).attr = s.attr := rfl
@[simp] theorem State.onPort_inited (s : State) (f : MemPort → MemPort) : (s.onPort f).inited = s.inited := rfl
@[simp] theorem State.onPort_fault (s : State) (f : MemPort → MemPort) : (s.onPort f).fault = s.fault := rfl
@[simp] theorem State.onPort_fcode (s : State) (f : MemPort → MemPort) : (s.onPort f).fcode = s.fcode := rfl
@[simp] theorem State.onPort_phase (s : State) (f : MemPort → MemPort) : (s.onPort f).phase = s.phase := rfl
@[simp] theorem State.onPort_port (s : State) (f : MemPort → MemPort) : (s.onPort f).port = f s.port := rfl
@[simp] theorem State.onPort_phases (s : State) (f : MemPort → MemPort) : (s.onPort f).phases = s.phases := rfl
@[simp] theorem State.onPort_cmds (s : State) (f : MemPort → MemPort) : (s.onPort f).cmds = s.cmds := rfl
@[simp] theorem State.onPort_rsp (s : State) (f : MemPort → MemPort) : (s.onPort f).rsp = s.rsp := rfl
@[simp] theorem State.onPort_cfg (s : State) (f : MemPort → MemPort) : (s.onPort f).cfg = s.cfg := rfl

/-! ### `State.beginStep` -/

@[simp] theorem State.beginStep_col (s : State) : (s.beginStep).col = s.col := rfl
@[simp] theorem State.beginStep_row (s : State) : (s.beginStep).row = s.row := rfl
@[simp] theorem State.beginStep_attr (s : State) : (s.beginStep).attr = s.attr := rfl
@[simp] theorem State.beginStep_inited (s : State) : (s.beginStep).inited = s.inited := rfl
@[simp] theorem State.beginStep_fault (s : State) : (s.beginStep).fault = s.fault := rfl
@[simp] theorem State.beginStep_fcode (s : State) : (s.beginStep).fcode = s.fcode := rfl
@[simp] theorem State.beginStep_phase (s : State) : (s.beginStep).phase = s.phase := rfl
@[simp] theorem State.beginStep_port (s : State) : (s.beginStep).port = ⟨s.port.mem, []⟩ := rfl
@[simp] theorem State.beginStep_phases (s : State) : (s.beginStep).phases = [] := rfl
@[simp] theorem State.beginStep_cmds (s : State) : (s.beginStep).cmds = s.cmds := rfl
@[simp] theorem State.beginStep_rsp (s : State) : (s.beginStep).rsp = none := rfl
@[simp] theorem State.beginStep_cfg (s : State) : (s.beginStep).cfg = s.cfg := rfl

/-! ### `State.accept` -/

@[simp] theorem State.accept_col (s : State) (rest : List CommandWord) : (s.accept rest).col = s.col := rfl
@[simp] theorem State.accept_row (s : State) (rest : List CommandWord) : (s.accept rest).row = s.row := rfl
@[simp] theorem State.accept_attr (s : State) (rest : List CommandWord) : (s.accept rest).attr = s.attr := rfl
@[simp] theorem State.accept_inited (s : State) (rest : List CommandWord) : (s.accept rest).inited = s.inited := rfl
@[simp] theorem State.accept_fault (s : State) (rest : List CommandWord) : (s.accept rest).fault = s.fault := rfl
@[simp] theorem State.accept_fcode (s : State) (rest : List CommandWord) : (s.accept rest).fcode = s.fcode := rfl
@[simp] theorem State.accept_phase (s : State) (rest : List CommandWord) : (s.accept rest).phase = s.phase := rfl
@[simp] theorem State.accept_port (s : State) (rest : List CommandWord) : (s.accept rest).port = ⟨s.port.mem, []⟩ := rfl
@[simp] theorem State.accept_phases (s : State) (rest : List CommandWord) : (s.accept rest).phases = [] := rfl
@[simp] theorem State.accept_cmds (s : State) (rest : List CommandWord) : (s.accept rest).cmds = rest := rfl
@[simp] theorem State.accept_rsp (s : State) (rest : List CommandWord) : (s.accept rest).rsp = none := rfl
@[simp] theorem State.accept_cfg (s : State) (rest : List CommandWord) : (s.accept rest).cfg = s.cfg := rfl

/-! ### `State.resetInput` -/

@[simp] theorem State.resetInput_col (s : State) (c r a : Byte) : (s.resetInput c r a).col = c := rfl
@[simp] theorem State.resetInput_row (s : State) (c r a : Byte) : (s.resetInput c r a).row = r := rfl
@[simp] theorem State.resetInput_attr (s : State) (c r a : Byte) : (s.resetInput c r a).attr = a := rfl
@[simp] theorem State.resetInput_inited (s : State) (c r a : Byte) : (s.resetInput c r a).inited = false := rfl
@[simp] theorem State.resetInput_fault (s : State) (c r a : Byte) : (s.resetInput c r a).fault = false := rfl
@[simp] theorem State.resetInput_fcode (s : State) (c r a : Byte) : (s.resetInput c r a).fcode = 0#2 := rfl
@[simp] theorem State.resetInput_phase (s : State) (c r a : Byte) : (s.resetInput c r a).phase = .idle := rfl
@[simp] theorem State.resetInput_port (s : State) (c r a : Byte) : (s.resetInput c r a).port = ⟨s.port.mem, []⟩ := rfl
@[simp] theorem State.resetInput_phases (s : State) (c r a : Byte) : (s.resetInput c r a).phases = [] := rfl
@[simp] theorem State.resetInput_cmds (s : State) (c r a : Byte) : (s.resetInput c r a).cmds = s.cmds := rfl
@[simp] theorem State.resetInput_rsp (s : State) (c r a : Byte) : (s.resetInput c r a).rsp = none := rfl
@[simp] theorem State.resetInput_cfg (s : State) (c r a : Byte) : (s.resetInput c r a).cfg = s.cfg := rfl

/-! ### What a reader of `Mem` sees -/

@[simp] theorem State.enter_byte (s : State) (p : Phase) (a : Addr) : (s.enter p).byte a = s.byte a := rfl
@[simp] theorem State.complete_byte (s : State) (v : CellValue) (a : Addr) : (s.complete v).byte a = s.byte a := rfl
@[simp] theorem State.setCursor_byte (s : State) (c r : Byte) (a : Addr) :
    (s.setCursor c r).byte a = s.byte a := rfl
@[simp] theorem State.setAttr_byte (s : State) (v : Byte) (a : Addr) : (s.setAttr v).byte a = s.byte a := rfl
@[simp] theorem State.setInited_byte (s : State) (a : Addr) : s.setInited.byte a = s.byte a := rfl
@[simp] theorem State.raise_byte (s : State) (c : Cause) (a : Addr) : (s.raise c).byte a = s.byte a := rfl
@[simp] theorem State.beginStep_byte (s : State) (a : Addr) : s.beginStep.byte a = s.byte a := rfl
@[simp] theorem State.accept_byte (s : State) (rest : List CommandWord) (a : Addr) :
    (s.accept rest).byte a = s.byte a := rfl
@[simp] theorem State.resetInput_byte (s : State) (c r v : Byte) (a : Addr) :
    (s.resetInput c r v).byte a = s.byte a := rfl
@[simp] theorem State.enter_cell (s : State) (p : Phase) (i : Nat) : (s.enter p).cell i = s.cell i := rfl
@[simp] theorem State.complete_cell (s : State) (v : CellValue) (i : Nat) : (s.complete v).cell i = s.cell i := rfl
@[simp] theorem State.setCursor_cell (s : State) (c r : Byte) (i : Nat) :
    (s.setCursor c r).cell i = s.cell i := rfl
@[simp] theorem State.setAttr_cell (s : State) (v : Byte) (i : Nat) : (s.setAttr v).cell i = s.cell i := rfl
@[simp] theorem State.setInited_cell (s : State) (i : Nat) : s.setInited.cell i = s.cell i := rfl
@[simp] theorem State.raise_cell (s : State) (c : Cause) (i : Nat) : (s.raise c).cell i = s.cell i := rfl

end Sys2Proof.Machine
end

