-- ==== Sys2Proof/Laws/Console.lean ====
section
/-! SUPPORT. The laws of the console's own operations: what clear, scroll and the placement of a character leave
in each field and in each cell of the grid, and which accesses they make. -/

namespace Sys2Proof.Machine

/-! ### The fields -/

@[simp] theorem State.clearGrid_col (s : State) : s.clearGrid.col = s.col := rfl
@[simp] theorem State.clearGrid_row (s : State) : s.clearGrid.row = s.row := rfl
@[simp] theorem State.clearGrid_attr (s : State) : s.clearGrid.attr = s.attr := rfl
@[simp] theorem State.clearGrid_inited (s : State) : s.clearGrid.inited = s.inited := rfl
@[simp] theorem State.clearGrid_fault (s : State) : s.clearGrid.fault = s.fault := rfl
@[simp] theorem State.clearGrid_fcode (s : State) : s.clearGrid.fcode = s.fcode := rfl
@[simp] theorem State.clearGrid_phase (s : State) : s.clearGrid.phase = .clearing := rfl
@[simp] theorem State.clearGrid_phases (s : State) : s.clearGrid.phases = .clearing :: s.phases := rfl
@[simp] theorem State.clearGrid_cmds (s : State) : s.clearGrid.cmds = s.cmds := rfl
@[simp] theorem State.clearGrid_rsp (s : State) : s.clearGrid.rsp = s.rsp := rfl
@[simp] theorem State.clearGrid_cfg (s : State) : s.clearGrid.cfg = s.cfg := rfl

@[simp] theorem State.scrollMove_col (s : State) : s.scrollMove.col = s.col := rfl
@[simp] theorem State.scrollMove_row (s : State) : s.scrollMove.row = s.row := rfl
@[simp] theorem State.scrollMove_attr (s : State) : s.scrollMove.attr = s.attr := rfl
@[simp] theorem State.scrollMove_inited (s : State) : s.scrollMove.inited = s.inited := rfl
@[simp] theorem State.scrollMove_fault (s : State) : s.scrollMove.fault = s.fault := rfl
@[simp] theorem State.scrollMove_fcode (s : State) : s.scrollMove.fcode = s.fcode := rfl
@[simp] theorem State.scrollMove_phase (s : State) : s.scrollMove.phase = .scrollMove := rfl
@[simp] theorem State.scrollMove_phases (s : State) : s.scrollMove.phases = .scrollMove :: s.phases := rfl
@[simp] theorem State.scrollMove_cmds (s : State) : s.scrollMove.cmds = s.cmds := rfl
@[simp] theorem State.scrollMove_rsp (s : State) : s.scrollMove.rsp = s.rsp := rfl
@[simp] theorem State.scrollMove_cfg (s : State) : s.scrollMove.cfg = s.cfg := rfl

@[simp] theorem State.scrollFill_col (s : State) : s.scrollFill.col = s.col := rfl
@[simp] theorem State.scrollFill_row (s : State) : s.scrollFill.row = s.row := rfl
@[simp] theorem State.scrollFill_attr (s : State) : s.scrollFill.attr = s.attr := rfl
@[simp] theorem State.scrollFill_inited (s : State) : s.scrollFill.inited = s.inited := rfl
@[simp] theorem State.scrollFill_fault (s : State) : s.scrollFill.fault = s.fault := rfl
@[simp] theorem State.scrollFill_fcode (s : State) : s.scrollFill.fcode = s.fcode := rfl
@[simp] theorem State.scrollFill_phase (s : State) : s.scrollFill.phase = .scrollFill := rfl
@[simp] theorem State.scrollFill_phases (s : State) : s.scrollFill.phases = .scrollFill :: s.phases := rfl
@[simp] theorem State.scrollFill_cmds (s : State) : s.scrollFill.cmds = s.cmds := rfl
@[simp] theorem State.scrollFill_rsp (s : State) : s.scrollFill.rsp = s.rsp := rfl
@[simp] theorem State.scrollFill_cfg (s : State) : s.scrollFill.cfg = s.cfg := rfl

@[simp] theorem State.scroll_col (s : State) : s.scroll.col = s.col := rfl
@[simp] theorem State.scroll_row (s : State) : s.scroll.row = s.row - 1#8 := rfl
@[simp] theorem State.scroll_attr (s : State) : s.scroll.attr = s.attr := rfl
@[simp] theorem State.scroll_inited (s : State) : s.scroll.inited = s.inited := rfl
@[simp] theorem State.scroll_fault (s : State) : s.scroll.fault = s.fault := rfl
@[simp] theorem State.scroll_fcode (s : State) : s.scroll.fcode = s.fcode := rfl
@[simp] theorem State.scroll_phase (s : State) : s.scroll.phase = .scrollFill := rfl
@[simp] theorem State.scroll_phases (s : State) : s.scroll.phases = .scrollFill :: .scrollMove :: s.phases := rfl
@[simp] theorem State.scroll_cmds (s : State) : s.scroll.cmds = s.cmds := rfl
@[simp] theorem State.scroll_rsp (s : State) : s.scroll.rsp = s.rsp := rfl
@[simp] theorem State.scroll_cfg (s : State) : s.scroll.cfg = s.cfg := rfl
theorem State.placeChar_of_control (s : State) (ch : Byte) (h : s.cfg.isControl ch = true) : s.placeChar ch = s := by
  rw [State.placeChar, if_pos h]

theorem State.placeChar_of_not_control (s : State) (ch : Byte) (h : s.cfg.isControl ch = false) :
    s.placeChar ch =
      (s.enter .place).onPort (fun p => p.writeCell (s.cfg.cellAddr s.col s.row) (encodeCell ch s.attr)) := by
  rw [State.placeChar, if_neg (by simp [h])]

/-! ### Bytes and cells -/

theorem State.byte_def (s : State) (a : Addr) : s.byte a = s.port.byte a := rfl

/-- A cell is its attribute byte above its character byte (`20_memory.md` R53). -/
theorem State.cell_eq_bytes (s : State) (i : Nat) :
    s.cell i = s.byte (s.cfg.cellAddrOf i + 1#32) ++ s.byte (s.cfg.cellAddrOf i) :=
  Memory.load_two _ _

/-- Two states that agree on the two bytes of a cell agree on the cell. -/
theorem State.cell_congr {s t : State} {i j : Nat}
    (h0 : t.byte (t.cfg.cellAddrOf i) = s.byte (s.cfg.cellAddrOf j))
    (h1 : t.byte (t.cfg.cellAddrOf i + 1#32) = s.byte (s.cfg.cellAddrOf j + 1#32)) : t.cell i = s.cell j := by
  rw [State.cell_eq_bytes, State.cell_eq_bytes, h0, h1]

/-- A cell whose two bytes are the bytes of a value holds the value. -/
theorem State.cell_of_bytes {t : State} {i : Nat} {v : CellValue}
    (h0 : t.byte (t.cfg.cellAddrOf i) = v.extractLsb' 0 8)
    (h1 : t.byte (t.cfg.cellAddrOf i + 1#32) = v.extractLsb' 8 8) : t.cell i = v := by
  rw [State.cell_eq_bytes, h0, h1, encodeCell_bytes]

/-! ### Clear -/

/-- Every byte after the clear procedure (R153). -/
theorem State.clearGrid_byte (s : State) (a : Addr) :
    s.clearGrid.byte a =
      if (a - s.cfg.gridBase).toNat < 4000 then s.blank.extractLsb' (8 * ((a - s.cfg.gridBase).toNat % 2)) 8
      else s.byte a := by
  refine (MemPort.byte_fillCells s.port s.cfg s.blank 0 2000 (by omega) a).trans (if_congr ?_ rfl rfl)
  omega

theorem State.clearGrid_cell (s : State) (i : Nat) (hi : i < 2000) : s.clearGrid.cell i = s.blank := by
  apply State.cell_of_bytes
  · rw [State.clearGrid_cfg, State.clearGrid_byte, toNat_cellAddrOf_sub _ _ hi, if_pos (by omega),
      show 8 * (2 * i % 2) = 0 by omega]
  · rw [State.clearGrid_cfg, State.clearGrid_byte, toNat_cellAddrOf_succ_sub _ _ hi, if_pos (by omega),
      show 8 * ((2 * i + 1) % 2) = 8 by omega]

theorem State.clearGrid_keepsOutsideGrid (s : State) : KeepsOutsideGrid s s.clearGrid := by
  intro a ha
  have ha' : ¬ (a - s.cfg.gridBase).toNat < 4000 := ha
  rw [State.clearGrid_byte, if_neg ha']

theorem State.clearGrid_made (s : State) : Made s.port s.clearGrid.port (fillActions s.cfg 0 2000) :=
  Made.fillCells ..

/-! ### Scroll -/

/-- Every byte after the move of the scroll: rows 1 to 24 move up one row (`40_bulk_mover.md` R116). -/
theorem State.scrollMove_byte (s : State) (a : Addr) :
    s.scrollMove.byte a =
      if (a - s.cfg.gridBase).toNat < 3840 then s.byte (a + 160#32) else s.byte a := by
  refine (MemPort.byte_move s.port (s.cfg.rowAddr 0) (s.cfg.rowAddr 1) 3840#32 a (by decide)).trans ?_
  have e0 : a - s.cfg.rowAddr 0 = a - s.cfg.gridBase := by simp [Config.rowAddr]
  have e1 : s.cfg.rowAddr 1 + (a - s.cfg.gridBase) = a + 160#32 := by
    rw [Config.rowAddr, show BitVec.ofNat 32 (ROW_BYTES * 1) = 160#32 from rfl]
    ring
  rw [e0, e1]
  rfl

/-- Every byte after the scroll (R173). -/
theorem State.scroll_byte (s : State) (a : Addr) :
    s.scroll.byte a =
      if (a - s.cfg.gridBase).toNat < 3840 then s.byte (a + 160#32)
      else if (a - s.cfg.gridBase).toNat < 4000 then s.blank.extractLsb' (8 * ((a - s.cfg.gridBase).toNat % 2)) 8
      else s.byte a := by
  refine (MemPort.byte_fillCells s.scrollMove.port s.cfg s.blank 1920 80 (by omega) a).trans ?_
  rw [← State.byte_def, State.scrollMove_byte]
  split_ifs <;> first | rfl | omega

theorem State.scroll_cell_up (s : State) (i : Nat) (hi : i < 1920) : s.scroll.cell i = s.cell (i + 80) := by
  have e : s.cfg.cellAddrOf (i + 80) = s.cfg.cellAddrOf i + 160#32 := by
    rw [Config.cellAddrOf, Config.cellAddrOf, Nat.mul_add, BitVec.ofNat_add, BitVec.add_assoc]
    rfl
  apply State.cell_congr
  · rw [State.scroll_cfg, State.scroll_byte, toNat_cellAddrOf_sub _ _ (by omega), if_pos (by omega), e]
  · rw [State.scroll_cfg, State.scroll_byte, toNat_cellAddrOf_succ_sub _ _ (by omega), if_pos (by omega), e,
      BitVec.add_assoc, BitVec.add_comm 1#32, ← BitVec.add_assoc]

theorem State.scroll_cell_last (s : State) (i : Nat) (h : 1920 ≤ i) (hi : i < 2000) :
    s.scroll.cell i = s.blank := by
  apply State.cell_of_bytes
  · rw [State.scroll_cfg, State.scroll_byte, toNat_cellAddrOf_sub _ _ hi, if_neg (by omega), if_pos (by omega),
      show 8 * (2 * i % 2) = 0 by omega]
  · rw [State.scroll_cfg, State.scroll_byte, toNat_cellAddrOf_succ_sub _ _ hi, if_neg (by omega),
      if_pos (by omega), show 8 * ((2 * i + 1) % 2) = 8 by omega]

theorem State.scroll_keepsOutsideGrid (s : State) : KeepsOutsideGrid s s.scroll := by
  intro a ha
  have ha' : ¬ (a - s.cfg.gridBase).toNat < 4000 := ha
  rw [State.scroll_byte, if_neg (by omega), if_neg ha']

theorem State.scroll_made (s : State) : Made s.port s.scroll.port (scrollActions s.cfg) := by
  have h := Made.move s.port (s.cfg.rowAddr 0) (s.cfg.rowAddr 1) 3840#32
  have e0 : s.cfg.rowAddr 0 = s.cfg.gridBase := by simp [Config.rowAddr]
  have e1 : s.cfg.rowAddr 1 = s.cfg.gridBase + 160#32 := rfl
  have e2 : s.cfg.gridBase - (s.cfg.gridBase + 160#32) = -160#32 := by ring
  rw [e0, e1, e2, if_neg (by decide)] at h
  have fill : Made s.scrollMove.port s.scroll.port (fillActions s.cfg 1920 80) :=
    Made.fillCells s.scrollMove.port s.cfg s.blank 1920 80
  have moved : s.scrollMove.port = s.port.move s.cfg.gridBase (s.cfg.gridBase + 160#32) 3840#32 := by
    rw [← e1, ← e0]
    rfl
  rw [moved] at fill
  exact h.trans fill

/-! ### Placement -/

/-- Every byte after a cell is placed at the cursor (R171). -/
theorem State.place_byte (s : State) (ch : Byte) (h : s.cfg.isControl ch = false) (a : Addr) :
    (s.placeChar ch).byte a =
      if (a - s.cfg.cellAddr s.col s.row).toNat < 2 then
        (encodeCell ch s.attr).extractLsb' (8 * (a - s.cfg.cellAddr s.col s.row).toNat) 8
      else s.byte a := by
  rw [State.placeChar_of_not_control _ _ h]
  exact MemPort.byte_writeCell ..

theorem toNat_sub_cellAddrOf (g : Config) (a : Addr) (i : Nat) (hi : i < 2000) :
    (a - g.cellAddrOf i).toNat =
      if 2 * i ≤ (a - g.gridBase).toNat then (a - g.gridBase).toNat - 2 * i
      else (a - g.gridBase).toNat + 2 ^ 32 - 2 * i := by
  have := (a - g.gridBase).isLt
  rw [Config.cellAddrOf, ← BitVec.sub_sub, BitVec.toNat_sub, BitVec.toNat_ofNat]
  simp only [CELL_BYTES]
  split_ifs <;> omega

theorem State.place_cell (s : State) (ch : Byte) (h : s.cfg.isControl ch = false) (hc : s.col.toNat < 80)
    (hr : s.row.toNat < 25) (i : Nat) (hi : i < 2000) :
    (s.placeChar ch).cell i =
      if i = s.row.toNat * 80 + s.col.toNat then encodeCell ch s.attr else s.cell i := by
  have hk : s.row.toNat * 80 + s.col.toNat < 2000 := by omega
  have hg : (s.placeChar ch).cfg = s.cfg := by rw [State.placeChar_of_not_control _ _ h]; rfl
  have ha : s.cfg.cellAddr s.col s.row = s.cfg.cellAddrOf (s.row.toNat * 80 + s.col.toNat) := rfl
  by_cases e : i = s.row.toNat * 80 + s.col.toNat
  · rw [if_pos e]
    apply State.cell_of_bytes
    · rw [hg, State.place_byte _ _ h, ha, e, toNat_sub_cellAddrOf _ _ _ hk, toNat_cellAddrOf_sub _ _ hk]
      simp
    · rw [hg, State.place_byte _ _ h, ha, e, toNat_sub_cellAddrOf _ _ _ hk, toNat_cellAddrOf_succ_sub _ _ hk]
      simp
  · rw [if_neg e]
    apply State.cell_congr
    · rw [hg, State.place_byte _ _ h, ha, toNat_sub_cellAddrOf _ _ _ hk, toNat_cellAddrOf_sub _ _ hi, if_neg]
      split_ifs <;> omega
    · rw [hg, State.place_byte _ _ h, ha, toNat_sub_cellAddrOf _ _ _ hk, toNat_cellAddrOf_succ_sub _ _ hi, if_neg]
      split_ifs <;> omega

theorem State.place_keepsOutsideGrid (s : State) (ch : Byte) (hc : s.col.toNat < 80) (hr : s.row.toNat < 25) :
    KeepsOutsideGrid s (s.placeChar ch) := by
  intro a ha
  have ha' : ¬ (a - s.cfg.gridBase).toNat < 4000 := ha
  cases h : s.cfg.isControl ch
  · rw [State.place_byte _ _ h, if_neg]
    rw [show s.cfg.cellAddr s.col s.row = s.cfg.cellAddrOf (s.row.toNat * 80 + s.col.toNat) from rfl,
      toNat_sub_cellAddrOf _ _ _ (by omega)]
    split_ifs <;> omega
  · rw [State.placeChar_of_control _ _ h]

theorem State.place_made (s : State) (ch : Byte) :
    Made s.port (s.placeChar ch).port
      (if s.cfg.isControl ch = true then [] else [(.write, s.cfg.cellAddr s.col s.row, .half)]) := by
  unfold State.placeChar
  split_ifs
  · exact Made.refl _
  · exact Made.writeCell ..

end Sys2Proof.Machine
end

