-- ==== Sys2Proof/Laws/PerInstr.lean ====
section
/-! SUPPORT. The statements made of every command as syntax, one lemma per constructor of `Instr`. -/

/-- The word of a command has the command's opcode and is legal (`30_encoding.md` R87, R88). -/
def Sys2Proof.Laws.EncodedLegal.Statement (i : Sys2Proof.Instr) : Prop :=
  (Sys2Proof.encodeFields i).op = i.opcode ∧ (Sys2Proof.encodeFields i).legal = true

namespace Sys2Proof.Laws.EncodedLegal

/-- An operand that fits in `k` bits has no reserved bit set. -/
theorem reservedZero_setWidth {w : Nat} (v : BitVec w) (h : w ≤ 32) : reservedZero w (v.setWidth 32) = true := by
  rw [reservedZero, beq_iff_eq]
  apply BitVec.eq_of_toNat_eq
  have := v.isLt
  have hp : 2 ^ w ≤ 2 ^ 32 := Nat.pow_le_pow_right (by omega) h
  rw [BitVec.toNat_ushiftRight, BitVec.toNat_setWidth, Nat.mod_eq_of_lt (by omega), Nat.shiftRight_eq_div_pow,
    Nat.div_eq_of_lt this]
  rfl

theorem reservedZero_zero (k : Nat) : reservedZero k 0#32 = true := by simp [reservedZero]

theorem reservedZero_all (v : BitVec 32) : reservedZero 32 v = true := by
  have := reservedZero_setWidth v (Nat.le_refl 32)
  rwa [BitVec.setWidth_eq] at this

/-- The fields of a command with three 32-bit operands are legal. -/
theorem legal_three (op : BitVec 4) (h : operandWidths op = some (32, 32, 32)) (a b c : BitVec 32) :
    (Fields.mk op a b c).legal = true := by
  simp [Fields.legal, h, reservedZero_all]

theorem copy (dst src n : Addr) : Statement (.copy dst src n) := ⟨rfl, legal_three _ rfl ..⟩
theorem move (dst src n : Addr) : Statement (.move dst src n) := ⟨rfl, legal_three _ rfl ..⟩
theorem wcopy (dst src n : Addr) : Statement (.wcopy dst src n) := ⟨rfl, legal_three _ rfl ..⟩
theorem enca (fg bg : Color) : Statement (.enca fg bg) := by
  refine ⟨rfl, ?_⟩
  simp only [Fields.legal, encodeFields, Instr.opcode, operandWidths]
  simp [reservedZero_setWidth, reservedZero_zero]
theorem encc (ch attr : Byte) : Statement (.encc ch attr) := by
  refine ⟨rfl, ?_⟩
  simp only [Fields.legal, encodeFields, Instr.opcode, operandWidths]
  simp [reservedZero_setWidth, reservedZero_zero]
theorem init : Statement .init := by unfold Statement; decide
theorem clear : Statement .clear := by unfold Statement; decide
theorem setfg (color : Color) : Statement (.setfg color) := by
  refine ⟨rfl, ?_⟩
  simp only [Fields.legal, encodeFields, Instr.opcode, operandWidths]
  simp [reservedZero_setWidth, reservedZero_zero]
theorem setbg (color : Color) : Statement (.setbg color) := by
  refine ⟨rfl, ?_⟩
  simp only [Fields.legal, encodeFields, Instr.opcode, operandWidths]
  simp [reservedZero_setWidth, reservedZero_zero]
theorem goto (xv yv : Byte) : Statement (.goto xv yv) := by
  refine ⟨rfl, ?_⟩
  simp only [Fields.legal, encodeFields, Instr.opcode, operandWidths]
  simp [reservedZero_setWidth, reservedZero_zero]
theorem putc (ch : Byte) : Statement (.putc ch) := by
  refine ⟨rfl, ?_⟩
  simp only [Fields.legal, encodeFields, Instr.opcode, operandWidths]
  simp [reservedZero_setWidth, reservedZero_zero]

end Sys2Proof.Laws.EncodedLegal
end

