-- ==== Sys2Proof/Laws/Putc.lean ====
section
/-! SUPPORT. The laws of PUTC's three steps: what the generic advance can do, what each adjustment does, and when
PUTC runs. -/

namespace Sys2Proof.Machine

/-! ### The checks -/

theorem requireInited_of_inited {s : State} (h : s.inited = true) (r : Result) : requireInited s r = r := by
  rw [requireInited, if_pos h]

theorem requireInited_of_not_inited {s : State} (h : s.inited = false) (r : Result) :
    requireInited s r = .next (s.raise .notInitialised) := by
  rw [requireInited, if_neg (by simp [h])]
  rfl

theorem requireCursor_of_inRange {s : State} (h : s.col.toNat < 80 ∧ s.row.toNat < 25) (r : Result) :
    requireCursor s r = r := by
  rw [requireCursor, if_pos ((cursorInRange_iff s).2 h)]

theorem requireCursor_of_not_inRange {s : State} (h : ¬ (s.col.toNat < 80 ∧ s.row.toNat < 25)) (r : Result) :
    requireCursor s r = .next (s.raise .cursorOutOfRange) := by
  rw [requireCursor, if_neg (mt (cursorInRange_iff s).1 h)]
  rfl

/-- PUTC that passes its checks does its three steps (R179). -/
theorem execPutc_runs (ch : Byte) {s : State} (hi : s.inited = true) (h : s.col.toNat < 80 ∧ s.row.toNat < 25) :
    execPutc ch s = .next (((s.placeChar ch).advance.adjust ch).complete 0x0000#16) := by
  rw [execPutc, requireInited_of_inited hi, requireCursor_of_inRange h]

/-! ### The placement keeps everything but memory and PHASE -/

theorem State.placeChar_keeps (s : State) (ch : Byte) :
    (s.placeChar ch).col = s.col ∧ (s.placeChar ch).row = s.row ∧ (s.placeChar ch).attr = s.attr ∧
    KeepsStatus s (s.placeChar ch) ∧ KeepsHost s (s.placeChar ch) ∧
    (s.placeChar ch).phases = (if s.cfg.isControl ch = true then [] else [.place]) ++ s.phases := by
  unfold State.placeChar
  split_ifs <;> exact ⟨rfl, rfl, rfl, ⟨rfl, rfl, rfl⟩, ⟨rfl, rfl⟩, rfl⟩

/-! ### The generic advance -/

/-- The state in which the scroll of the generic advance starts: row 25 of column 0 (R172). -/
def State.atOverflow (s : State) : State := (s.enter .advance).setCursor 0#8 25#8

/-- What the generic advance can do from a cursor in range (R172): step one cell on, wrap, or wrap and
scroll. -/
theorem State.advance_cases (s : State) (hc : s.col.toNat < 80) (hr : s.row.toNat < 25) :
    (s.col.toNat < 79 ∧ s.advance = (s.enter .advance).setCursor (s.col + 1#8) s.row) ∨
    (s.col.toNat = 79 ∧ s.row.toNat < 24 ∧
      s.advance = (s.enter .advance).setCursor 0#8 (s.row + 1#8)) ∨
    (AtLastCell s ∧ s.advance = s.atOverflow.scroll) := by
  have col80 : s.col + 1#8 = 80#8 ↔ s.col.toNat = 79 := by
    constructor
    · intro h
      have := congrArg BitVec.toNat h
      simp only [BitVec.toNat_add, BitVec.toNat_ofNat] at this
      omega
    · intro h
      apply BitVec.eq_of_toNat_eq
      simp only [BitVec.toNat_add, BitVec.toNat_ofNat]
      omega
  have row25 : s.row + 1#8 = 25#8 ↔ s.row.toNat = 24 := by
    constructor
    · intro h
      have := congrArg BitVec.toNat h
      simp only [BitVec.toNat_add, BitVec.toNat_ofNat] at this
      omega
    · intro h
      apply BitVec.eq_of_toNat_eq
      simp only [BitVec.toNat_add, BitVec.toNat_ofNat]
      omega
  by_cases h : s.col.toNat = 79
  · right
    have ha : s.advance = ((s.enter .advance).setCursor (s.col + 1#8) s.row).wrapLine := if_pos (col80.2 h)
    by_cases h' : s.row.toNat = 24
    · right
      refine ⟨⟨h, h'⟩, ?_⟩
      rw [ha, State.wrapLine]
      have e : s.row + 1#8 = 25#8 := row25.2 h'
      simp only [State.setCursor_row, e, if_true]
      rfl
    · left
      refine ⟨h, by omega, ?_⟩
      rw [ha, State.wrapLine]
      have e : ¬ s.row + 1#8 = 25#8 := mt row25.1 h'
      simp only [State.setCursor_row, e, if_false]
      rfl
  · left
    exact ⟨by omega, if_neg (mt col80.1 h)⟩

/-- Everything the generic advance leaves (R172, R173). -/
structure AdvancedTo (s t : State) : Prop where
  col : t.col.toNat = advCol s
  row : t.row.toNat = advRow s
  attr : t.attr = s.attr
  status : KeepsStatus s t
  host : KeepsHost s t
  grid : GridAdvanced s s.cell t
  outside : KeepsOutsideGrid s t
  made : Made s.port t.port (if AtLastCell s then scrollActions s.cfg else [])
  phases : t.phases =
    (if AtLastCell s then [.scrollFill, .scrollMove] else []) ++ .advance :: s.phases

theorem State.advance_spec (s : State) (hc : s.col.toNat < 80) (hr : s.row.toNat < 25) :
    AdvancedTo s s.advance := by
  rcases s.advance_cases hc hr with ⟨h, e⟩ | ⟨h, h', e⟩ | ⟨⟨h, h'⟩, e⟩ <;> rw [e]
  · have hn : ¬ AtLastCell s := fun hl => by have := hl.1; omega
    refine ⟨?_, ?_, rfl, ⟨rfl, rfl, rfl⟩, ⟨rfl, rfl⟩, ⟨fun hl => absurd hl hn, fun _ _ _ => rfl⟩,
      fun _ _ => rfl, ?_, ?_⟩
    · simp only [advCol, if_pos h, State.setCursor_col, BitVec.toNat_add, BitVec.toNat_ofNat]
      omega
    · simp only [advRow, if_pos h, State.setCursor_row]
    · rw [if_neg hn]
      exact Made.refl _
    · rw [if_neg hn]
      rfl
  · have hn : ¬ AtLastCell s := fun hl => by have := hl.2; omega
    refine ⟨?_, ?_, rfl, ⟨rfl, rfl, rfl⟩, ⟨rfl, rfl⟩, ⟨fun hl => absurd hl hn, fun _ _ _ => rfl⟩,
      fun _ _ => rfl, ?_, ?_⟩
    · rw [advCol, if_neg (by omega)]
      rfl
    · simp only [advRow, if_neg (show ¬ s.col.toNat < 79 by omega), if_pos h', State.setCursor_row,
        BitVec.toNat_add,
        BitVec.toNat_ofNat]
      omega
    · rw [if_neg hn]
      exact Made.refl _
    · rw [if_neg hn]
      rfl
  · refine ⟨?_, ?_, rfl, ⟨rfl, rfl, rfl⟩, ⟨rfl, rfl⟩, ⟨fun _ => ⟨fun i hi => ?_, fun i hi => ?_⟩, fun hn => ?_⟩,
      ?_, ?_, ?_⟩
    · rw [advCol, if_neg (by omega)]
      rfl
    · rw [advRow, if_neg (by omega), if_neg (by omega)]
      exact (by decide : (25#8 - 1#8).toNat = 24)
    · exact State.scroll_cell_up _ _ hi
    · exact State.scroll_cell_last _ _ (by omega) (by omega)
    · exact absurd ⟨h, h'⟩ hn
    · exact State.scroll_keepsOutsideGrid s.atOverflow
    · rw [if_pos ⟨h, h'⟩]
      exact State.scroll_made s.atOverflow
    · rw [if_pos ⟨h, h'⟩]
      rfl

/-! ### The adjustment -/

theorem State.adjust_bs (s : State) : s.adjust s.cfg.bs = (s.enter .adjust).setCursor (backspaceCol s.col) s.row := by
  simp [State.adjust]

theorem State.adjust_lf (s : State) (h : s.cfg.lf ≠ s.cfg.bs) :
    s.adjust s.cfg.lf = (s.enter .adjust).setCursor 0#8 (s.row + 1#8) := by
  simp [State.adjust, h]

theorem State.adjust_ff (s : State) (h : s.cfg.ff ≠ s.cfg.bs) (h' : s.cfg.ff ≠ s.cfg.lf) :
    s.adjust s.cfg.ff = (s.enter .adjust).clearGrid := by
  simp [State.adjust, h, h']

theorem State.adjust_cr (s : State) (h : s.cfg.cr ≠ s.cfg.bs) (h' : s.cfg.cr ≠ s.cfg.lf) (h'' : s.cfg.cr ≠ s.cfg.ff) :
    s.adjust s.cfg.cr = (s.enter .adjust).setCursor 0#8 s.row := by
  simp [State.adjust, h, h', h'']

/-- No adjustment for BEL and for a code that is not a control code (R178). -/
theorem State.adjust_none (s : State) (ch : Byte) (h : ch ≠ s.cfg.bs) (h' : ch ≠ s.cfg.lf) (h'' : ch ≠ s.cfg.ff)
    (h''' : ch ≠ s.cfg.cr) : s.adjust ch = s.enter .adjust := by
  simp [State.adjust, h, h', h'', h''']

theorem backspaceCol_toNat (c : Byte) : (backspaceCol c).toNat = c.toNat - 2 := by
  unfold backspaceCol
  have h2 : (2#8 ≤ c) ↔ 2 ≤ c.toNat := by simp [BitVec.le_def]
  split_ifs with h
  · have := h2.1 h
    have := c.isLt
    rw [BitVec.toNat_sub, BitVec.toNat_ofNat]
    omega
  · have := mt h2.2 h
    simp only [BitVec.toNat_ofNat]
    omega

/-- Everything the adjustment can do (R174 to R178): it changes the cursor, or clears the grid for FF, and enters
ADJUST. -/
theorem State.adjust_cases (s : State) (ch : Byte) :
    (ch = s.cfg.bs ∧ s.adjust ch = (s.enter .adjust).setCursor (backspaceCol s.col) s.row) ∨
    (ch = s.cfg.lf ∧ ch ≠ s.cfg.bs ∧ s.adjust ch = (s.enter .adjust).setCursor 0#8 (s.row + 1#8)) ∨
    (ch = s.cfg.ff ∧ ch ≠ s.cfg.bs ∧ ch ≠ s.cfg.lf ∧ s.adjust ch = (s.enter .adjust).clearGrid) ∨
    (ch = s.cfg.cr ∧ ch ≠ s.cfg.bs ∧ ch ≠ s.cfg.lf ∧ ch ≠ s.cfg.ff ∧
      s.adjust ch = (s.enter .adjust).setCursor 0#8 s.row) ∨
    (ch ≠ s.cfg.bs ∧ ch ≠ s.cfg.lf ∧ ch ≠ s.cfg.ff ∧ ch ≠ s.cfg.cr ∧ s.adjust ch = s.enter .adjust) := by
  by_cases h1 : ch = s.cfg.bs
  · exact .inl ⟨h1, by rw [h1, State.adjust_bs]⟩
  by_cases h2 : ch = s.cfg.lf
  · exact .inr (.inl ⟨h2, h1, by rw [h2, State.adjust_lf _ (h2 ▸ h1)]⟩)
  by_cases h3 : ch = s.cfg.ff
  · exact .inr (.inr (.inl ⟨h3, h1, h2, by rw [h3, State.adjust_ff _ (h3 ▸ h1) (h3 ▸ h2)]⟩))
  by_cases h4 : ch = s.cfg.cr
  · exact .inr (.inr (.inr (.inl
      ⟨h4, h1, h2, h3, by rw [h4, State.adjust_cr _ (h4 ▸ h1) (h4 ▸ h2) (h4 ▸ h3)]⟩)))
  · exact .inr (.inr (.inr (.inr ⟨h1, h2, h3, h4, State.adjust_none _ _ h1 h2 h3 h4⟩)))

/-- What no adjustment changes. -/
theorem State.adjust_keeps (s : State) (ch : Byte) :
    (s.adjust ch).attr = s.attr ∧ KeepsStatus s (s.adjust ch) ∧ KeepsHost s (s.adjust ch) ∧
    KeepsOutsideGrid s (s.adjust ch) ∧ ∃ as, Made s.port (s.adjust ch).port as := by
  rcases s.adjust_cases ch with ⟨-, e⟩ | ⟨-, -, e⟩ | ⟨-, -, -, e⟩ | ⟨-, -, -, -, e⟩ | ⟨-, -, -, -, e⟩ <;>
    rw [e]
  case inr.inr.inl =>
    exact ⟨rfl, ⟨rfl, rfl, rfl⟩, ⟨rfl, rfl⟩, State.clearGrid_keepsOutsideGrid (s.enter .adjust),
      _, State.clearGrid_made (s.enter .adjust)⟩
  all_goals exact ⟨rfl, ⟨rfl, rfl, rfl⟩, ⟨rfl, rfl⟩, fun _ _ => rfl, _, Made.refl _⟩

end Sys2Proof.Machine
end

