-- ==== Sys2Proof/Laws/Step.lean ====
section
/-! SUPPORT. What a command and a step can do: one inversion lemma per shared operation, cited instead of
unfolding `exec` and `step`. -/

namespace Sys2Proof.Machine

/-- `State.raise` does what R201 lists and nothing else. -/
theorem raisedFrom_raise (c : Cause) (s : State) : RaisedFrom c s (s.raise c) :=
  ⟨rfl, rfl, rfl, rfl, by simp [State.cmdReady], ⟨rfl, rfl, rfl⟩, rfl, fun _ => rfl, rfl, ⟨rfl, rfl⟩⟩

/-- A mover command that takes a step was backed, and ran its accesses in phase MOVER. -/
theorem runMover_next_iff (dst src n : Addr) (f : MemPort → MemPort) (s t : State) :
    runMover dst src n f s = .next t ↔
      s.cfg.backs src n.toNat = true ∧ s.cfg.backs dst n.toNat = true ∧
      t = ((s.enter .mover).onPort f).complete 0x0000#16 := by
  simp only [runMover]
  split_ifs with h
  · simp only [Bool.and_eq_true] at h
    simp [h.1, h.2, eq_comm]
  · simp only [Bool.and_eq_true] at h
    constructor
    · intro h'; cases h'
    · rintro ⟨h1, h2, -⟩; exact absurd ⟨h1, h2⟩ h

theorem requireInited_next_iff (s t : State) (r : Result) :
    requireInited s r = .next t ↔
      (s.inited = true ∧ r = .next t) ∨ (s.inited = false ∧ t = s.raise .notInitialised) := by
  cases h : s.inited
  · rw [requireInited_of_not_inited h]
    simp [eq_comm]
  · rw [requireInited_of_inited h]
    simp

theorem requireCursor_next_iff (s t : State) (r : Result) :
    requireCursor s r = .next t ↔
      ((s.col.toNat < 80 ∧ s.row.toNat < 25) ∧ r = .next t) ∨
      (¬ (s.col.toNat < 80 ∧ s.row.toNat < 25) ∧ t = s.raise .cursorOutOfRange) := by
  by_cases h : s.col.toNat < 80 ∧ s.row.toNat < 25
  · rw [requireCursor_of_inRange h]
    simp [h]
  · rw [requireCursor_of_not_inRange h]
    simp only [h, false_and, not_false_iff, true_and, false_or]
    constructor
    · intro h'; cases h'; rfl
    · rintro rfl; rfl

theorem execPutc_next_iff (ch : Byte) (s t : State) :
    execPutc ch s = .next t ↔
      (s.inited = false ∧ t = s.raise .notInitialised) ∨
      (s.inited = true ∧ ¬ (s.col.toNat < 80 ∧ s.row.toNat < 25) ∧ t = s.raise .cursorOutOfRange) ∨
      (s.inited = true ∧ (s.col.toNat < 80 ∧ s.row.toNat < 25) ∧
        t = ((s.placeChar ch).advance.adjust ch).complete 0x0000#16) := by
  rw [execPutc, requireInited_next_iff, requireCursor_next_iff]
  simp only [Host.Outcome.next.injEq, eq_comm (a := t)]
  tauto

/-- What a command that takes a step can do: complete, with its own effect, or raise a fault. -/
theorem exec_next_cases {i : Instr} {s t : State} (h : exec i s = .next t) :
    (∃ c, t = s.raise c) ∨ (∃ (u : State) (v : CellValue), t = u.complete v ∧
      u.fault = s.fault ∧ u.fcode = s.fcode ∧ KeepsHost s u ∧ ∃ as, Made s.port u.port as) := by
  cases i with
  | copy dst src n =>
    obtain ⟨-, -, rfl⟩ := (runMover_next_iff ..).1 h
    exact .inr ⟨_, _, rfl, rfl, rfl, ⟨rfl, rfl⟩, _, Made.copyUp ..⟩
  | move dst src n =>
    obtain ⟨-, -, rfl⟩ := (runMover_next_iff ..).1 h
    exact .inr ⟨_, _, rfl, rfl, rfl, ⟨rfl, rfl⟩, _, Made.move ..⟩
  | wcopy dst src n =>
    obtain ⟨-, -, rfl⟩ := (runMover_next_iff ..).1 h
    exact .inr ⟨_, _, rfl, rfl, rfl, ⟨rfl, rfl⟩, _, Made.copyWords ..⟩
  | enca fg bg =>
    cases h
    exact .inr ⟨_, _, rfl, rfl, rfl, ⟨rfl, rfl⟩, _, Made.refl _⟩
  | encc ch attr =>
    cases h
    exact .inr ⟨_, _, rfl, rfl, rfl, ⟨rfl, rfl⟩, _, Made.refl _⟩
  | init =>
    cases h
    exact .inr ⟨_, _, rfl, rfl, rfl, ⟨rfl, rfl⟩, _,
      State.clearGrid_made ((s.setCursor 0#8 0#8).setAttr DEFAULT_ATTR)⟩
  | clear =>
    rcases (requireInited_next_iff ..).1 h with ⟨-, h'⟩ | ⟨-, rfl⟩
    · cases h'
      exact .inr ⟨_, _, rfl, rfl, rfl, ⟨rfl, rfl⟩, _, State.clearGrid_made s⟩
    · exact .inl ⟨_, rfl⟩
  | setfg color =>
    rcases (requireInited_next_iff ..).1 h with ⟨-, h'⟩ | ⟨-, rfl⟩
    · cases h'
      exact .inr ⟨_, _, rfl, rfl, rfl, ⟨rfl, rfl⟩, _, Made.refl _⟩
    · exact .inl ⟨_, rfl⟩
  | setbg color =>
    rcases (requireInited_next_iff ..).1 h with ⟨-, h'⟩ | ⟨-, rfl⟩
    · cases h'
      exact .inr ⟨_, _, rfl, rfl, rfl, ⟨rfl, rfl⟩, _, Made.refl _⟩
    · exact .inl ⟨_, rfl⟩
  | goto xv yv =>
    rcases (requireInited_next_iff ..).1 h with ⟨-, h'⟩ | ⟨-, rfl⟩
    · cases h'
      exact .inr ⟨_, _, rfl, rfl, rfl, ⟨rfl, rfl⟩, _, Made.refl _⟩
    · exact .inl ⟨_, rfl⟩
  | putc ch =>
    rcases (execPutc_next_iff ..).1 h with ⟨-, rfl⟩ | ⟨-, -, rfl⟩ | ⟨-, hr, rfl⟩
    · exact .inl ⟨_, rfl⟩
    · exact .inl ⟨_, rfl⟩
    · obtain ⟨hc, hw, -, hst, hh, -⟩ := s.placeChar_keeps ch
      have adv := (s.placeChar ch).advance_spec (by rw [hc]; exact hr.1) (by rw [hw]; exact hr.2)
      obtain ⟨-, ast, ah, -, as, am⟩ := (s.placeChar ch).advance.adjust_keeps ch
      refine .inr ⟨_, _, rfl, ?_, ?_, ⟨?_, ?_⟩, _, ((s.place_made ch).trans adv.made).trans am⟩
      · rw [ast.2.1, adv.status.2.1, hst.2.1]
      · rw [ast.2.2, adv.status.2.2, hst.2.2]
      · rw [ah.1, adv.host.1, hh.1]
      · rw [ah.2, adv.host.2, hh.2]

theorem busy_eq_false_iff (s : State) : s.busy = false ↔ s.phase = .idle := by
  simp [State.busy]

theorem cmdReady_iff (s : State) : s.cmdReady = true ↔ s.fault = false ∧ s.phase = .idle := by
  simp [State.cmdReady, busy_eq_false_iff, and_comm]

/-- A ready block with a word on offer runs it. -/
theorem step_of_ready {s : State} {w : CommandWord} {rest : List CommandWord} (h : s.cmdReady = true)
    (hw : s.cmds = w :: rest) : step s = runWord w (s.accept rest) := by
  obtain ⟨hf, hp⟩ := (cmdReady_iff s).1 h
  rw [step, if_neg (by simp [hf]), if_neg (by simp [(busy_eq_false_iff s).2 hp]), hw]

/-- What a step can do: nothing with no command on offer, the effect of a command, or IllegalCommand. -/
theorem step_next_cases {s t : State} (h : step s = .next t) :
    s.cmdReady = true ∧
    ((s.cmds = [] ∧ t = s.beginStep) ∨
      ∃ w rest, s.cmds = w :: rest ∧
        ((∃ i, decode w = .legal i ∧ exec i (s.accept rest) = .next t) ∨
          (∃ why, decode w = .illegal why ∧ t = (s.accept rest).raise .illegalCommand))) := by
  unfold step at h
  split_ifs at h with hf hb
  refine ⟨(cmdReady_iff s).2 ⟨by simpa using hf, (busy_eq_false_iff s).1 (by simpa using hb)⟩, ?_⟩
  cases hc : s.cmds with
  | nil =>
    rw [hc] at h
    cases h
    exact .inl ⟨rfl, rfl⟩
  | cons w rest =>
    rw [hc] at h
    refine .inr ⟨w, rest, rfl, ?_⟩
    simp only [runWord] at h
    cases hd : decode w with
    | legal i =>
      rw [hd] at h
      exact .inl ⟨i, rfl, h⟩
    | illegal why =>
      rw [hd] at h
      cases h
      exact .inr ⟨why, rfl, rfl⟩

/-- A command answers a next state, or it is a mover command that leaves MemMap. -/
theorem exec_answers (i : Instr) (s : State) :
    (∃ t, exec i s = .next t) ∨ exec i s = .fault .unbackedAccess := by
  have checked : ∀ r t, r = .next t → ∃ u, requireInited s r = .next u := fun r t hr => by
    subst hr
    unfold requireInited
    split
    · exact ⟨_, rfl⟩
    · exact ⟨_, rfl⟩
  have mover : ∀ dst src n f, (∃ t, runMover dst src n f s = .next t) ∨
      runMover dst src n f s = .fault .unbackedAccess := fun dst src n f => by
    unfold runMover
    split
    · exact .inl ⟨_, rfl⟩
    · exact .inr rfl
  cases i with
  | copy dst src n => exact mover ..
  | move dst src n => exact mover ..
  | wcopy dst src n => exact mover ..
  | enca fg bg => exact .inl ⟨_, rfl⟩
  | encc ch attr => exact .inl ⟨_, rfl⟩
  | init => exact .inl ⟨_, rfl⟩
  | clear => exact .inl (checked _ _ rfl)
  | setfg color => exact .inl (checked _ _ rfl)
  | setbg color => exact .inl (checked _ _ rfl)
  | goto xv yv => exact .inl (checked _ _ rfl)
  | putc ch =>
    refine .inl ?_
    by_cases h : s.col.toNat < 80 ∧ s.row.toNat < 25
    · exact checked _ _ (requireCursor_of_inRange h _)
    · exact checked _ _ (requireCursor_of_not_inRange h _)

/-! ### Sequences of commands -/

@[simp] theorem State.offering_col (s : State) (ws : List CommandWord) : (s.offering ws).col = s.col := rfl
@[simp] theorem State.offering_row (s : State) (ws : List CommandWord) : (s.offering ws).row = s.row := rfl
@[simp] theorem State.offering_attr (s : State) (ws : List CommandWord) : (s.offering ws).attr = s.attr := rfl
@[simp] theorem State.offering_inited (s : State) (ws : List CommandWord) : (s.offering ws).inited = s.inited := rfl
@[simp] theorem State.offering_fault (s : State) (ws : List CommandWord) : (s.offering ws).fault = s.fault := rfl
@[simp] theorem State.offering_fcode (s : State) (ws : List CommandWord) : (s.offering ws).fcode = s.fcode := rfl
@[simp] theorem State.offering_phase (s : State) (ws : List CommandWord) : (s.offering ws).phase = s.phase := rfl
@[simp] theorem State.offering_port (s : State) (ws : List CommandWord) : (s.offering ws).port = s.port := rfl
@[simp] theorem State.offering_phases (s : State) (ws : List CommandWord) : (s.offering ws).phases = s.phases := rfl
@[simp] theorem State.offering_rsp (s : State) (ws : List CommandWord) : (s.offering ws).rsp = s.rsp := rfl
@[simp] theorem State.offering_cfg (s : State) (ws : List CommandWord) : (s.offering ws).cfg = s.cfg := rfl
@[simp] theorem State.offering_cmds (s : State) (ws : List CommandWord) : (s.offering ws).cmds = ws := rfl

theorem State.offering_self (s : State) : s.offering s.cmds = s := rfl

theorem State.issue_nil (s : State) : s.issue [] = .next (s.offering []) := rfl

theorem run_add (n m : Nat) (s t : State) (h : run n s = .next t) : run (n + m) s = run m t := by
  induction n generalizing s with
  | zero =>
    cases h
    rw [Nat.zero_add]
  | succ n ih =>
    rw [Nat.succ_add]
    simp only [run] at h ⊢
    cases hs : step s with
    | next u =>
      rw [hs] at h
      exact ih u h
    | fault f =>
      rw [hs] at h
      cases h
    | refused r =>
      rw [hs] at h
      cases h

/-- The first command of a sequence takes its step, and the others are issued after it. -/
theorem State.issue_cons {s t : State} {i : Instr} (commands : List Instr) (hr : s.cmdReady = true)
    (hd : decode (encode i) = .legal i)
    (h : exec i ((s.offering ((i :: commands).map encode)).accept (commands.map encode)) = .next t) :
    s.issue (i :: commands) = t.issue commands := by
  have hc : t.cmds = commands.map encode := by
    rcases exec_next_cases h with ⟨c, rfl⟩ | ⟨u, v, rfl, -, -, hh, -⟩
    · rfl
    · exact hh.1
  have hs : step (s.offering ((i :: commands).map encode)) = .next t := by
    rw [step_of_ready (s := s.offering ((i :: commands).map encode)) hr rfl, runWord, hd]
    exact h
  rw [State.issue, List.length_cons, run, hs, State.issue, ← hc, State.offering_self]

/-! ### Reset during a command -/

theorem State.resetDuring_of_next {s t : State} (h : step s = .next t) (k : Nat) (col row attr : Byte) :
    s.resetDuring k col row attr = s.abandon (t.port.log.reverse.take k) t.cmds col row attr := by
  rw [State.resetDuring, h]

theorem State.resetDuring_of_unbacked {s : State} (h : step s = .fault .unbackedAccess) (k : Nat)
    (col row attr : Byte) :
    s.resetDuring k col row attr = s.abandon (s.backedAccesses.take k) s.cmds.tail col row attr := by
  rw [State.resetDuring, h]

end Sys2Proof.Machine
end

