-- ==== Sys2Proof/Tests/Slice0.lean ====
section
/-! SUPPORT. The model's own tests: expected values are those of `95_test_vectors.md` and of the rules' own
examples, each named in the docstring; then, for every statement with hypotheses, a state and operands that meet
them together. -/

namespace Sys2Proof.Tests

open Sys2Proof Sys2Proof.Machine

/-! ### Helpers -/

/-- An initialised block with this cursor and attribute, at the default parameters. -/
def ready (col row attr : Byte) : State := { State.reset with inited := true, col := col, row := row, attr := attr }

/-- The block right after reset, with this word on offer. -/
def offered (w : CommandWord) : State := { State.reset with cmds := [w] }

/-- The bytes 11 22 33 44 55 66 77 88 at 0x1000, as `95_test_vectors.md` section 2.3 starts from. -/
def vectorMemory : Memory :=
  [(0x1000, 0x11#8), (0x1001, 0x22#8), (0x1002, 0x33#8), (0x1003, 0x44#8),
   (0x1004, 0x55#8), (0x1005, 0x66#8), (0x1006, 0x77#8), (0x1007, 0x88#8)]

/-- The state right after reset with that memory. -/
def vectorState : State := { State.reset with port := ⟨vectorMemory, []⟩ }

/-- The same, on a platform that does not back the byte at 0x2001. -/
def holedState : State := { vectorState with cfg := { Config.default with holes := [⟨0x2001#32, 1⟩] } }

/-- The same, with a COPY on offer that is stuck at its second byte. -/
def stuckState : State := { holedState with cmds := [encode (.copy 0x2000#32 0x1000#32 2#32)] }

/-- The bytes from an address in the next state of an outcome, and the number of accesses made. -/
def bytesAfter (r : Result) (a : Addr) (n : Nat) : Option (List Byte × Nat) :=
  match r with
  | .next t => some ((List.range n).map (fun i => t.byte (a + BitVec.ofNat 32 i)), t.port.log.length)
  | .fault _ => none
  | .refused _ => none

/-- The cursor, FAULT and the number of accesses in the next state of an outcome. -/
def cursorAfter (r : Result) : Option (Byte × Byte × Bool × Nat) :=
  match r with
  | .next t => some (t.col, t.row, t.fault, t.port.log.length)
  | .fault _ => none
  | .refused _ => none

/-- A cell in the next state of an outcome. -/
def cellAfter (r : Result) (i : Nat) : Option CellValue :=
  match r with
  | .next t => some (t.cell i)
  | .fault _ => none
  | .refused _ => none

/-- The attribute, STATUS and the completion event in the next state of an outcome. -/
def reportAfter (r : Result) : Option (Byte × Byte × Option Response) :=
  match r with
  | .next t => some (t.attr, t.status, t.rsp)
  | .fault _ => none
  | .refused _ => none

/-! ### WellFormed: an ill-formed word for each check -/

theorem test_reserved_opcode_zero_is_ill_formed : (Fields.mk 0x0#4 0#32 0#32 0#32).legal = false := by decide

theorem test_reserved_opcode_c_is_ill_formed : (Fields.mk 0xC#4 0#32 0#32 0#32).legal = false := by decide

theorem test_reserved_bit_of_a_is_ill_formed : (Fields.mk 0x8#4 0x10#32 0#32 0#32).legal = false := by decide

theorem test_reserved_bit_of_b_is_ill_formed : (Fields.mk 0xA#4 0x05#32 0x100#32 0#32).legal = false := by decide

theorem test_reserved_bit_of_c_is_ill_formed : (Fields.mk 0x6#4 0#32 0#32 1#32).legal = false := by decide

theorem test_full_operands_are_well_formed :
    (Fields.mk 0x1#4 0xFFFFFFFF#32 0xFFFFFFFF#32 0xFFFFFFFF#32).legal = true := by decide

/-! ### Decode: words written out from `30_encoding.md` R85 to R87 -/

theorem test_decode_copy :
    decode (0x1#4 ++ 0x00002000#32 ++ 0x00001000#32 ++ 0x00000004#32) = .legal (.copy 0x2000#32 0x1000#32 4#32) := by
  decide

/-- The word of `95_test_vectors.md` section 2.3 for the scroll's own move. -/
theorem test_decode_move :
    decode 0x2000B8000000B80A000000F00#100 = .legal (.move 0x000B8000#32 0x000B80A0#32 3840#32) := by decide

/-- Program P3, command 6. -/
theorem test_decode_wcopy :
    decode 0x3000B80040000100000000006#100 = .legal (.wcopy 0x000B8004#32 0x1000#32 6#32) := by decide

theorem test_decode_enca :
    decode (0x4#4 ++ 0x0000000F#32 ++ 0x00000008#32 ++ 0#32) = .legal (.enca 15#4 8#4) := by decide

/-- `95_test_vectors.md` section 2.1. -/
theorem test_decode_encc : decode 0x5000000200000000700000000#100 = .legal (.encc 0x20#8 0x07#8) := by decide

theorem test_decode_init : decode (0x6#4 ++ 0#32 ++ 0#32 ++ 0#32) = .legal .init := by decide

theorem test_decode_clear : decode (0x7#4 ++ 0#32 ++ 0#32 ++ 0#32) = .legal .clear := by decide

theorem test_decode_setfg : decode (0x8#4 ++ 0x00000004#32 ++ 0#32 ++ 0#32) = .legal (.setfg 4#4) := by decide

theorem test_decode_setbg : decode (0x9#4 ++ 0x00000001#32 ++ 0#32 ++ 0#32) = .legal (.setbg 1#4) := by decide

/-- `95_test_vectors.md` section 2.4: column first, then row. -/
theorem test_decode_goto : decode 0xA000000050000000300000000#100 = .legal (.goto 5#8 3#8) := by decide

/-- Program P1, command 6. -/
theorem test_decode_putc : decode 0xB0000000A0000000000000000#100 = .legal (.putc 0x0A#8) := by decide

theorem test_decode_reserved_opcodes :
    decode 0xC000000000000000000000000#100 = .illegal (.reservedOpcode 0xC#4) ∧
    decode 0xFFFFFFFFFFFFFFFFFFFFFFFFF#100 = .illegal (.reservedOpcode 0xF#4) := by decide

/-- `95_test_vectors.md` section 2.4: SETFG with bit 4 of `a` set. -/
theorem test_decode_reserved_bit :
    decode 0x8000000100000000000000000#100 = .illegal (.reservedOperandBits 0x8#4) := by decide

theorem test_encode_goto : encode (.goto 255#8 255#8) = 0xA000000FF000000FF00000000#100 := by decide

theorem test_decodeTableWord_reads_the_match_word :
    decodeTableWord 104 0xB000000000000000000000000 = some (.putc 0#8) := by decide

/-! ### The bulk mover (`95_test_vectors.md` section 2.3) -/

theorem test_copy_overlapping_repeats :
    bytesAfter (exec (.copy 0x1001#32 0x1000#32 4#32) vectorState) 0x1000#32 8 =
      some ([0x11#8, 0x11#8, 0x11#8, 0x11#8, 0x11#8, 0x66#8, 0x77#8, 0x88#8], 8) := by decide

/-- The wrap-around of R58; and n = 0, which makes no access, be the destination backed or not (R111). -/
theorem test_copy_wraps_and_empty_copy :
    bytesAfter (exec (.copy 0xFFFFFFFE#32 0x1000#32 4#32) vectorState) 0xFFFFFFFE#32 4 =
      some ([0x11#8, 0x22#8, 0x33#8, 0x44#8], 8) ∧
    bytesAfter (exec (.copy 0x2001#32 0x1000#32 0#32) holedState) 0x1000#32 1 = some ([0x11#8], 0) := by decide

theorem test_move_down :
    bytesAfter (exec (.move 0x1003#32 0x1000#32 5#32) vectorState) 0x1000#32 8 =
      some ([0x11#8, 0x22#8, 0x33#8, 0x11#8, 0x22#8, 0x33#8, 0x44#8, 0x55#8], 10) := by decide

theorem test_move_up :
    bytesAfter (exec (.move 0x1000#32 0x1001#32 4#32) vectorState) 0x1000#32 8 =
      some ([0x22#8, 0x33#8, 0x44#8, 0x55#8, 0x55#8, 0x66#8, 0x77#8, 0x88#8], 8) := by decide

theorem test_wcopy_overlapping_differs_from_copy :
    bytesAfter (exec (.wcopy 0x1001#32 0x1000#32 6#32) vectorState) 0x1000#32 8 =
      some ([0x11#8, 0x11#8, 0x22#8, 0x33#8, 0x44#8, 0x44#8, 0x44#8, 0x88#8], 6) := by decide

theorem test_wcopy_misaligned :
    bytesAfter (exec (.wcopy 0x2001#32 0x1000#32 6#32) vectorState) 0x2000#32 8 =
      some ([0x00#8, 0x11#8, 0x22#8, 0x33#8, 0x44#8, 0x55#8, 0x66#8, 0x00#8], 6) := by decide

/-! ### The cell encoder (section 2.1) -/

theorem test_enca :
    reportAfter (exec (.enca 4#4 1#4) State.reset) = some (0x00#8, 0x00#8, some ⟨true, 0x0014#16⟩) := by decide

theorem test_encc :
    reportAfter (exec (.encc 0x41#8 0x14#8) State.reset) = some (0x00#8, 0x00#8, some ⟨true, 0x1441#16⟩) := by decide

/-! ### The address generator (section 2.2) -/

theorem test_cell_addr_last : Config.default.cellAddr 79#8 24#8 = 0x000B8F9E#32 := by decide

/-! ### The console state commands (section 2.4) -/

theorem test_init_cursor :
    (cursorAfter (exec .init (ready 5#8 3#8 0x14#8))).map (fun x => (x.1, x.2.1)) = some (0#8, 0#8) := by decide

theorem test_init_report :
    reportAfter (exec .init State.reset) = some (0x07#8, 0x02#8, some ⟨true, 0x0000#16⟩) := by decide

/-- The first cells that the clear procedure writes, character byte first (R53). -/
theorem test_clear_writes_cells :
    ((State.reset.port).fillCells Config.default 0x0720#16 0 2).mem =
      [(0xB8000, 0x20#8), (0xB8001, 0x07#8), (0xB8002, 0x20#8), (0xB8003, 0x07#8)] := by decide

theorem test_clear_before_init_faults :
    reportAfter (exec .clear State.reset) = some (0x00#8, 0x14#8, some ⟨false, 0x0000#16⟩) := by decide

theorem test_setfg :
    reportAfter (exec (.setfg 4#4) (ready 0#8 0#8 0x07#8)) = some (0x04#8, 0x02#8, some ⟨true, 0x0000#16⟩) := by decide

theorem test_setbg :
    reportAfter (exec (.setbg 1#4) (ready 0#8 0#8 0x04#8)) = some (0x14#8, 0x02#8, some ⟨true, 0x0000#16⟩) := by decide

theorem test_goto_stores_out_of_range :
    cursorAfter (exec (.goto 255#8 255#8) (ready 0#8 0#8 0x07#8)) = some (255#8, 255#8, false, 0) := by decide

/-! ### PUTC (section 2.5) -/

/-- Printed characters: the cell (S6), the wrap, and the fault of a cursor out of range with STATUS 0x1E. -/
theorem test_putc_printed :
    cellAfter (exec (.putc 0x41#8) (ready 0#8 0#8 0x14#8)) 0 = some 0x1441#16 ∧
    cursorAfter (exec (.putc 0x78#8) (ready 79#8 3#8 0x07#8)) = some (0#8, 4#8, false, 1) ∧
    reportAfter (exec (.putc 0x41#8) (ready 80#8 0#8 0x07#8)) =
      some (0x07#8, 0x1E#8, some ⟨false, 0x0000#16⟩) := by decide

/-- BEL, BS, LF (the pinned case of S8, then the one that leaves row 25) and CR. -/
theorem test_putc_control_codes :
    cursorAfter (exec (.putc 0x07#8) (ready 79#8 3#8 0x07#8)) = some (0#8, 4#8, false, 0) ∧
    cursorAfter (exec (.putc 0x08#8) (ready 78#8 3#8 0x07#8)) = some (77#8, 3#8, false, 0) ∧
    cursorAfter (exec (.putc 0x0A#8) (ready 5#8 3#8 0x07#8)) = some (0#8, 4#8, false, 0) ∧
    cursorAfter (exec (.putc 0x0A#8) (ready 79#8 23#8 0x07#8)) = some (0#8, 25#8, false, 0) ∧
    cursorAfter (exec (.putc 0x0D#8) (ready 79#8 3#8 0x07#8)) = some (0#8, 4#8, false, 0) :=
  ⟨by decide, by decide, by decide, by decide, by decide⟩

/-! ### Steps -/

/-- The all-zero word after reset: STATUS 0x0C (section 2.4). -/
theorem test_all_zero_word_faults :
    reportAfter (step (State.reset.withFetchWord 104 0)) = some (0x00#8, 0x0C#8, some ⟨false, 0x0000#16⟩) := by decide

theorem test_step_runs_the_word_on_offer :
    reportAfter (step (State.reset.withFetchWord 104 0x5000000410000001400000000)) =
      some (0x00#8, 0x00#8, some ⟨true, 0x1441#16⟩) := by decide

/-- R52, R221: a COPY that is stuck at its second byte has moved its first, and reset abandons it. -/
theorem test_reset_abandons_a_stuck_copy :
    step stuckState = .fault .unbackedAccess ∧ (stuckState.resetDuring 9 0#8 0#8 0#8).byte 0x2000#32 = 0x11#8 ∧
    (stuckState.resetDuring 9 0#8 0#8 0#8).cmds = [] ∧ (stuckState.resetDuring 1 0#8 0#8 0#8).byte 0x2000#32 = 0x00#8 :=
  ⟨rfl, by decide, by decide, by decide⟩

/-- The escapes of `30_encoding.md` R92. -/
theorem test_assemble_escape :
    assembleWords Config.default "PUTC '\\n'".toList = some [0xB0000000A0000000000000000#100] := by decide

/-- R92: an operand that does not fit its field is an assembler error. -/
theorem test_assemble_rejects_a_wide_operand : assembleWords Config.default "SETFG 16".toList = none := by decide

/-! ### Witnesses: a state and operands that meet the hypotheses of each statement together -/

/-- A byte address without a hole in MemMap. -/
theorem default_mapped (a : Addr) (n : Nat) : RegionMapped Config.default a n := fun _ _ => rfl

theorem witness_encodeOfDecode : decode (0x7#4 ++ 0#32 ++ 0#32 ++ 0#32) = .legal .clear := by decide

theorem witness_wordsSelect_decoded : decode 0x9000000010000000000000000#100 = .legal (.setbg 1#4) := by decide

theorem witness_wordsSelect_selected :
    ∃ r ∈ opcodeTable, r.selects 0x9000000010000000000000000#100 = true := by decide

theorem witness_unlistedWords :
    (offered 0#100).cmdReady = true ∧ (offered 0#100).cmds = 0#100 :: [] ∧
    (∀ r ∈ opcodeTable, r.selects 0#100 = false) := by decide

theorem witness_unlistedWords_reserved_bit :
    ∀ r ∈ opcodeTable, r.selects 0x6000000000000000000000001#100 = false := by decide

theorem witness_stepRunsTheCommand :
    (offered 0x6000000000000000000000000#100).cmdReady = true ∧
    (offered 0x6000000000000000000000000#100).cmds = 0x6000000000000000000000000#100 :: [] ∧
    decode 0x6000000000000000000000000#100 = .legal .init := by decide

theorem witness_faultedBlock : (State.reset.raise .illegalCommand).fault = true := by decide

/-- Its second clause: the run of one illegal word. -/
theorem witness_faultedBlock_run : ∃ t, run 1 (offered 0#100) = .next t ∧ t.fault = true := ⟨_, rfl, rfl⟩

theorem witness_idleBlock : State.reset.cmdReady = true ∧ State.reset.cmds = [] := by decide

/-- For `StepKeepsTheParameters`, `StepKeepsTheInvariant` and `PhasesFollowTheTable`: the step that runs INIT. -/
theorem witness_step_init :
    (offered 0x6000000000000000000000000#100).Inv ∧
    ∃ t, step (offered 0x6000000000000000000000000#100) = .next t := by
  exact ⟨by unfold State.Inv; decide, _, rfl⟩

/-- The same three, and the scroll: a PUTC at the last cell. -/
theorem witness_step_scroll :
    ({ ready 79#8 24#8 0x07#8 with cmds := [0xB000000410000000000000000#100] } : State).Inv ∧
    ∃ t, step { ready 79#8 24#8 0x07#8 with cmds := [0xB000000410000000000000000#100] } = .next t := by
  exact ⟨by unfold State.Inv; decide, _, rfl⟩

/-- The same three, with no command on offer and with an illegal word. -/
theorem witness_step_idle_and_illegal :
    (ready 0#8 0#8 0x07#8).Inv ∧ (∃ t, step (ready 0#8 0#8 0x07#8) = .next t) ∧
    (offered 0#100).Inv ∧ ∃ t, step (offered 0#100) = .next t := by
  exact ⟨by unfold State.Inv; decide, ⟨_, rfl⟩, by unfold State.Inv; decide, _, rfl⟩

theorem witness_commandsFault_not_initialised :
    State.reset.fault = false ∧ State.reset.fcode = 0#2 ∧ needsInited (.goto 0#8 0#8) = true ∧
    State.reset.inited = false ∧ ∃ t, exec (.goto 0#8 0#8) State.reset = .next t ∧ t.fault = true := by
  exact ⟨rfl, rfl, rfl, rfl, _, rfl, rfl⟩

/-- The row of the boundary: the cursor that a line-feed on the last row leaves. -/
theorem witness_commandsFault_out_of_range :
    (ready 0#8 25#8 0x07#8).fault = false ∧ (ready 0#8 25#8 0x07#8).fcode = 0#2 ∧
    (ready 0#8 25#8 0x07#8).inited = true ∧
    ¬ ((ready 0#8 25#8 0x07#8).col.toNat < 80 ∧ (ready 0#8 25#8 0x07#8).row.toNat < 25) ∧
    ∃ t, exec (.putc 0x0D#8) (ready 0#8 25#8 0x07#8) = .next t ∧ t.fault = true := by
  exact ⟨rfl, rfl, rfl, by decide, _, rfl, rfl⟩

theorem witness_commandsFault_none :
    (ready 79#8 24#8 0x07#8).fault = false ∧ (ready 79#8 24#8 0x07#8).fcode = 0#2 ∧
    ∃ t, exec (.putc 0x0A#8) (ready 79#8 24#8 0x07#8) = .next t ∧ t.fault = false := by
  exact ⟨rfl, rfl, _, rfl, rfl⟩

theorem witness_faultChecks_illegal :
    (offered 0x8000000100000000000000000#100).cmdReady = true ∧
    (offered 0x8000000100000000000000000#100).cmds = 0x8000000100000000000000000#100 :: [] ∧
    decode 0x8000000100000000000000000#100 = .illegal (.reservedOperandBits 8#4) := by decide

theorem witness_faultChecks_not_initialised :
    needsInited (.putc 0x41#8) = true ∧ State.reset.inited = false := by decide

theorem witness_faultChecks_out_of_range :
    (ready 80#8 24#8 0x07#8).inited = true ∧
    ¬ ((ready 80#8 24#8 0x07#8).col.toNat < 80 ∧ (ready 80#8 24#8 0x07#8).row.toNat < 25) := by decide

/-- For `OnlyInitSetsInited` and `RegistersAreWrittenOnlyAsListed`: INIT, and a command that is none of the
writers of the three registers. -/
theorem witness_exec_init_and_clear :
    (∃ t, exec .init State.reset = .next t) ∧
    (∃ t, exec .clear (ready 5#8 3#8 0x14#8) = .next t) ∧
    ((Instr.clear ≠ .init ∧ (∀ c, Instr.clear ≠ .setfg c) ∧ (∀ c, Instr.clear ≠ .setbg c)) ∧
      (Instr.clear ≠ .init ∧ (∀ x y, Instr.clear ≠ .goto x y) ∧ (∀ ch, Instr.clear ≠ .putc ch))) := by
  refine ⟨⟨_, rfl⟩, ⟨_, rfl⟩, ?_⟩
  simp

theorem witness_registersNotRead :
    State.reset.inited = false ∧ (∃ t, exec .init State.reset = .next t) ∧
    ∃ t, exec (.putc 0x41#8) State.reset = .next t := by
  exact ⟨rfl, ⟨_, rfl⟩, _, rfl⟩

/-- `EveryCommandHasItsResponse`: a fault, the two encoder commands and a command that returns 0x0000. -/
theorem witness_response_fault :
    (offered 0#100).cmdReady = true ∧ (offered 0#100).cmds = 0#100 :: [] ∧
    ∃ t, step (offered 0#100) = .next t ∧ t.fault = true := ⟨by decide, rfl, _, rfl, rfl⟩

theorem witness_response_enca :
    (offered (encode (.enca 15#4 15#4))).cmdReady = true ∧
    (offered (encode (.enca 15#4 15#4))).cmds = encode (.enca 15#4 15#4) :: [] ∧
    ∃ t, step (offered (encode (.enca 15#4 15#4))) = .next t ∧ t.fault = false := ⟨by decide, rfl, _, rfl, rfl⟩

theorem witness_response_encc :
    (offered (encode (.encc 0xFF#8 0xFF#8))).cmdReady = true ∧
    (offered (encode (.encc 0xFF#8 0xFF#8))).cmds = encode (.encc 0xFF#8 0xFF#8) :: [] ∧
    ∃ t, step (offered (encode (.encc 0xFF#8 0xFF#8))) = .next t ∧ t.fault = false := ⟨by decide, rfl, _, rfl, rfl⟩

theorem witness_response_init :
    (offered (encode .init)).cmdReady = true ∧ (offered (encode .init)).cmds = encode .init :: [] ∧
    ∃ t, step (offered (encode .init)) = .next t ∧ t.fault = false := ⟨by decide, rfl, _, rfl, rfl⟩

/-- The clauses of `StatusRegisterLayout` about FCODE and about the three register outputs. -/
theorem witness_status :
    (ready 0#8 0#8 0x07#8).Inv ∧ (ready 0#8 0#8 0x07#8).fault = false ∧ (ready 0#8 0#8 0x07#8).inited = true ∧
    (ready 0#8 0#8 0x07#8).busy = false := by
  exact ⟨by unfold State.Inv; decide, rfl, rfl, by decide⟩

theorem witness_canonicalMemories :
    Memory.wf vectorMemory = true ∧ Memory.wf vectorMemory = true ∧
    (∀ a : Addr, Memory.read vectorMemory a.toNat = Memory.read vectorMemory a.toNat) :=
  ⟨by decide, by decide, fun _ => rfl⟩

theorem witness_littleEndian :
    3 < Width.bytes .word ∧ ¬ InRegion 0xFFFFFFFE#32 (Width.bytes .word) 0x00000002#32 ∧
    InRegion 0xFFFFFFFE#32 (Width.bytes .word) 0x00000001#32 := by
  unfold InRegion
  decide

/-- `AccessesAccountForMemory`, `AccessesStayInMemMap` and `ConsoleWritesStayInTheGrid`: the scroll, which makes
every kind of access a console command makes. -/
theorem witness_accesses :
    (ready 79#8 24#8 0x07#8).cfg.valid = true ∧
    AccessesMapped (ready 79#8 24#8 0x07#8).cfg (ready 79#8 24#8 0x07#8).port.log ∧
    isMover (.putc 0x41#8) = false ∧ ∃ t, exec (.putc 0x41#8) (ready 79#8 24#8 0x07#8) = .next t := by
  exact ⟨by decide, fun _ h => (by cases h), rfl, _, rfl⟩

/-- The second clause of `ConsoleWritesStayInTheGrid`. -/
theorem witness_no_access :
    (∃ x y, Instr.goto 79#8 24#8 = .goto x y) ∧ ∃ t, exec (.goto 79#8 24#8) (ready 0#8 0#8 0x07#8) = .next t := by
  exact ⟨⟨_, _, rfl⟩, _, rfl⟩

/-- `CopyRunsItsLoop`, `MoveRunsItsLoop`, `WcopyRunsItsLoops`, `MoveIsOverlapSafe`: both regions in MemMap, with
`0 < d < n`; and the largest count. -/
theorem witness_movers_overlapping :
    RegionMapped vectorState.cfg 0x1000#32 (6#32).toNat ∧ RegionMapped vectorState.cfg 0x1001#32 (6#32).toNat ∧
    0 < (0x1001#32 - 0x1000#32).toNat ∧ (0x1001#32 - 0x1000#32).toNat < (6#32).toNat ∧ (6#32).toNat ≤ 2 ^ 31 ∧
    RegionMapped vectorState.cfg 0x1000#32 (0xFFFFFFFF#32).toNat :=
  ⟨default_mapped _ _, default_mapped _ _, by decide, by decide, by decide, default_mapped _ _⟩

/-- The same, disjoint, and `MoversAgreeWithoutOverlap`. -/
theorem witness_movers_disjoint :
    RegionMapped vectorState.cfg 0x1000#32 (4#32).toNat ∧ RegionMapped vectorState.cfg 0x1004#32 (4#32).toNat ∧
    ¬ (0 < (0x1004#32 - 0x1000#32).toNat ∧ (0x1004#32 - 0x1000#32).toNat < (4#32).toNat) :=
  ⟨default_mapped _ _, default_mapped _ _, by decide⟩

/-- The last byte of the destination is the hole. -/
theorem witness_moverOutside :
    ¬ (RegionMapped holedState.cfg 0x1000#32 (2#32).toNat ∧ RegionMapped holedState.cfg 0x2000#32 (2#32).toNat) := by
  unfold RegionMapped
  decide

/-- Each opcode has a word whose reserved operand bits are 0 (`OpcodeMeans`). -/
theorem witness_opcodes_legal :
    ∀ op ∈ [0x1#4, 0x2#4, 0x3#4, 0x4#4, 0x5#4, 0x6#4, 0x7#4, 0x8#4, 0x9#4, 0xA#4, 0xB#4],
      (op ++ 0#32 ++ 0#32 ++ 0#32).extractLsb' 96 4 = op ∧
      (op ++ 0#32 ++ 0#32 ++ 0#32).extractLsb' 64 32 = 0#32 ∧ (op ++ 0#32 ++ 0#32 ++ 0#32).extractLsb' 32 32 = 0#32 ∧
      (op ++ 0#32 ++ 0#32 ++ 0#32).extractLsb' 0 32 = 0#32 := by decide

/-- And each but the movers', which have no reserved bit, has one with a reserved operand bit set: bit 31
of `c`. -/
theorem witness_opcodes_reserved_bit :
    ∀ op ∈ [0x4#4, 0x5#4, 0x6#4, 0x7#4, 0x8#4, 0x9#4, 0xA#4, 0xB#4],
      (op ++ 0#32 ++ 0#32 ++ 0x80000000#32).extractLsb' 96 4 = op ∧
      ¬ (op ++ 0#32 ++ 0#32 ++ 0x80000000#32).extractLsb' 0 32 >>> 0 = 0#32 := by decide

theorem witness_cellIndex : 79 < 80 ∧ 24 < 25 ∧ 1999 < 2000 := by decide

theorem witness_cellAddresses :
    Config.default.valid = true ∧ (79#8 : Byte).toNat < 80 ∧ (24#8 : Byte).toNat < 25 := by decide

/-- `InitBringsTheConsoleToItsStart`: the premises of its clause about STATUS. -/
theorem witness_init : State.reset.fault = false ∧ State.reset.fcode = 0#2 := by decide

/-- `ClearBlanksTheGrid`, `ClearTwiceIsClearOnce`, `SetfgWritesTheForeground`, `SetbgWritesTheBackground` and
`GotoStoresItsOperands`: both values of INITED, the first with the cursor out of range and the block ready for the
sequences. -/
theorem witness_console_commands :
    (ready 255#8 255#8 0x07#8).cmdReady = true ∧ (ready 255#8 255#8 0x07#8).inited = true ∧
    State.reset.inited = false := by decide

/-- `PutcChecksBeforeAnyEffect`: each check fails somewhere, the third at both edges of the grid. -/
theorem witness_putcChecks :
    State.reset.inited = false ∧
    ((ready 80#8 0#8 0x07#8).inited = true ∧
      ¬ ((ready 80#8 0#8 0x07#8).col.toNat < 80 ∧ (ready 80#8 0#8 0x07#8).row.toNat < 25)) ∧
    ((ready 79#8 25#8 0x07#8).inited = true ∧
      ¬ ((ready 79#8 25#8 0x07#8).col.toNat < 80 ∧ (ready 79#8 25#8 0x07#8).row.toNat < 25)) := by decide

/-- The PUTC statements: at the last cell, where the advance scrolls, with a character that is no control code. -/
theorem witness_putc_last_cell :
    (ready 79#8 24#8 0x07#8).inited = true ∧ (ready 79#8 24#8 0x07#8).col.toNat < 80 ∧
    (ready 79#8 24#8 0x07#8).row.toNat < 25 ∧ (ready 79#8 24#8 0x07#8).cfg.valid = true ∧
    (ready 79#8 24#8 0x07#8).cfg.isControl 0x78#8 = false ∧ AtLastCell (ready 79#8 24#8 0x07#8) := by decide

/-- The PUTC statements: at the first cell, where it does not. -/
theorem witness_putc_first_cell :
    (ready 0#8 0#8 0x07#8).inited = true ∧ (ready 0#8 0#8 0x07#8).col.toNat < 80 ∧
    (ready 0#8 0#8 0x07#8).row.toNat < 25 ∧ (ready 0#8 0#8 0x07#8).cfg.valid = true ∧
    (ready 0#8 0#8 0x07#8).cfg.isControl 0x00#8 = false ∧ ¬ AtLastCell (ready 0#8 0#8 0x07#8) := by decide

/-- `PrintedCharactersFillTheGridInOrder`, with the longest sequence that does not scroll. -/
theorem witness_printedCharacters :
    (ready 0#8 0#8 0x14#8).cmdReady = true ∧ (ready 0#8 0#8 0x14#8).inited = true ∧ (ready 0#8 0#8 0x14#8).col = 0#8 ∧ (ready 0#8 0#8 0x14#8).row = 0#8 ∧
    (ready 0#8 0#8 0x14#8).cfg.valid = true ∧
    (∀ ch ∈ List.replicate 1999 0x41#8, (ready 0#8 0#8 0x14#8).cfg.isControl ch = false) ∧
    (List.replicate 1999 0x41#8).length ≤ 1999 := by
  refine ⟨by decide, rfl, rfl, rfl, by decide, fun ch h => ?_, Nat.le_of_eq List.length_replicate⟩
  rw [(List.mem_replicate.1 h).2]
  decide

theorem witness_twoThousandCharacters :
    State.reset.cmdReady = true ∧ State.reset.cfg.valid = true ∧
    (∀ ch ∈ List.replicate 2000 0x41#8, State.reset.cfg.isControl ch = false) ∧
    (List.replicate 2000 0x41#8).length = 2000 ∧ State.reset.cfg.isControl 0x3B#8 = false := by
  refine ⟨by decide, by decide, fun ch h => ?_, List.length_replicate, by decide⟩
  rw [(List.mem_replicate.1 h).2]
  decide

/-- `ResetAbandonsTheCommandInProgress`: its first clause, with a word that takes a step. -/
theorem witness_resetAbandons :
    (offered (encode .init)).cmdReady = true ∧ (offered (encode .init)).cmds = encode .init :: [] ∧
    ∃ t, step (offered (encode .init)) = .next t := ⟨by decide, rfl, _, rfl⟩

/-- Its second clause: one byte can be moved, and the destination of the next is the hole. -/
theorem witness_resetAbandons_stuck :
    stuckState.cmdReady = true ∧ stuckState.cmds = encode (.copy 0x2000#32 0x1000#32 2#32) :: [] ∧
    1 < (2#32).toNat ∧ RegionMapped stuckState.cfg 0x1000#32 1 ∧ RegionMapped stuckState.cfg 0x2000#32 1 ∧
    ¬ (stuckState.cfg.mapped (0x1000#32 + BitVec.ofNat 32 1) = true ∧
      stuckState.cfg.mapped (0x2000#32 + BitVec.ofNat 32 1) = true) ∧
    ¬ (0 < (0x2000#32 - 0x1000#32).toNat ∧ (0x2000#32 - 0x1000#32).toNat < 1) ∧ 2 * 1 ≤ 3 := by
  unfold RegionMapped
  decide

theorem witness_resetDuringClear :
    ({ ready 5#8 3#8 0x14#8 with cmds := [encode .clear] } : State).cmdReady = true ∧
    ({ ready 5#8 3#8 0x14#8 with cmds := [encode .clear] } : State).cmds = encode .clear :: [] ∧
    ({ ready 5#8 3#8 0x14#8 with cmds := [encode .clear] } : State).inited = true := by decide

theorem witness_hostEvents : (ready 80#8 25#8 0xFF#8).Inv := by
  unfold State.Inv
  decide

end Sys2Proof.Tests
end

section
/-! The statements about a step and an access (`00_scope.md` R9, R10): what a ready block runs, that a faulted
block takes no step, and that a wide access is little-endian and is read back. -/

namespace Sys2Proof.Machine

/-! ### Wide accesses -/

/-- A bit of a load is a bit of the byte it falls in (`20_memory.md` R53). -/
theorem Memory.getLsbD_load (m : Memory) (a : Addr) (n i : Nat) (hi : i < 8 * n) (hn : n ≤ 4) :
    (Memory.load m a n).getLsbD i = (Memory.read m (a + BitVec.ofNat 32 (i / 8)).toNat).getLsbD (i % 8) := by
  rw [← Memory.extract_load m a n (i / 8) (by omega) hn, BitVec.getLsbD_extractLsb', Nat.div_add_mod]
  simp [Nat.mod_lt]

/-- A store is read back by a load of the same width at the same address, with zeros above. -/
theorem Memory.load_store (m : Memory) (a : Addr) (v : BitVec 32) (n : Nat) (hn : n ≤ 4) :
    Memory.load (Memory.store m a v n) a n = v &&& BitVec.ofNat 32 (2 ^ (8 * n) - 1) := by
  apply BitVec.eq_of_getLsbD_eq
  intro i hi
  rw [BitVec.getLsbD_and, BitVec.getLsbD_ofNat, Nat.testBit_two_pow_sub_one]
  by_cases h : i < 8 * n
  · rw [Memory.getLsbD_load _ _ _ _ h hn, Memory.read_store _ _ _ _ (by omega), toNat_offset _ _ (by omega),
      if_pos (by omega), BitVec.getLsbD_extractLsb', Nat.div_add_mod]
    simp [h, hi, Nat.mod_lt]
  · rw [Memory.load_high _ _ _ _ (by omega)]
    simp [h]

/-- Settles O21: the byte at every address after a write gives the first two clauses, and the store's read-back
the third. -/
theorem memoryAccessesAreLittleEndian : Obligations.MemoryAccessesAreLittleEndian := by
  intro p a w v
  have hw := w.bytes_le
  refine ⟨fun k hk => ?_, fun x hx => ?_, Memory.load_store _ _ _ _ hw⟩
  · rw [MemPort.byte_memWrite, toNat_offset _ _ (by omega), if_pos hk]
  · exact (MemPort.byte_memWrite ..).trans (if_neg hx)

/-! ### Steps -/

/-- Settles O7: a ready block runs the word on offer, and what that word does is `exec` of its decoding. -/
theorem stepRunsTheCommandOnOffer : Obligations.StepRunsTheCommandOnOffer := by
  intro s w rest i hready hcmds hdecode
  have hstep : step s = exec i (s.accept rest) := by
    rw [step_of_ready hready hcmds, runWord, hdecode]
  exact ⟨hstep, rfl, rfl, rfl, rfl, rfl, rfl, ⟨rfl, rfl, rfl⟩, ⟨rfl, rfl, rfl⟩, s.accept_byte rest⟩

/-- A faulted block has no step (R10, log entry 7). -/
theorem step_of_fault {s : State} (h : s.fault = true) : step s = .fault .blockFaulted := if_pos h

theorem cmdReady_of_fault {s : State} (h : s.fault = true) : s.cmdReady = false := by
  simp [State.cmdReady, h]

/-- A run of at least one step from a faulted block stops at once. -/
theorem run_succ_of_fault {s : State} (n : Nat) (h : s.fault = true) :
    run (n + 1) s = .fault .blockFaulted := by
  rw [run, step_of_fault h]

/-- Settles O8: a longer run goes on from the faulted state, and stops at its first step. -/
theorem faultedBlockTakesNoStep : Obligations.FaultedBlockTakesNoStep :=
  ⟨fun _ h => ⟨cmdReady_of_fault h, step_of_fault h⟩,
    fun n m s t hrun hfault => (run_add n (m + 1) s t hrun).trans (run_succ_of_fault m hfault)⟩

end Sys2Proof.Machine
end

section
/-! What a command leaves of the state (`10_state.md`): each command's effect beside its completion, and from it
the parameters, INITED, the console registers and the phases after a step; STATUS; and the invariant. -/

namespace Sys2Proof.Machine

/-! ### The invariant -/

theorem Cause.code_ne_zero (c : Cause) : c.code ≠ 0#2 := by cases c <;> decide

theorem config_default_valid : Config.default.valid = true := by decide

/-- A fault sets FAULT and a code that is not 0. -/
theorem State.Inv.raise {s : State} (h : s.Inv) (c : Cause) : (s.raise c).Inv := by
  obtain ⟨hmem, hcfg, -, -⟩ := h
  exact ⟨hmem, hcfg, rfl, by simp [c.code_ne_zero]⟩

/-- The records of the step before are no part of the invariant. -/
theorem State.Inv.beginStep {s : State} (h : s.Inv) : s.beginStep.Inv := h

theorem State.Inv.accept {s : State} (h : s.Inv) (rest : List CommandWord) : (s.accept rest).Inv := h

/-- A command that takes a step keeps the invariant. -/
theorem exec_keeps_inv {i : Instr} {s t : State} (hs : s.Inv) (h : exec i s = .next t) : t.Inv := by
  rcases exec_next_cases h with ⟨c, rfl⟩ | ⟨u, v, rfl, hfault, hfcode, ⟨-, hucfg⟩, _, hmade⟩
  · exact hs.raise c
  · obtain ⟨hmem, hcfg, -, hlatch⟩ := hs
    refine ⟨hmade.wf hmem, ?_, rfl, ?_⟩
    · rw [State.complete_cfg, hucfg, hcfg]
    · rw [State.complete_fault, State.complete_fcode, hfault, hfcode, hlatch]

/-- Settles O59: an idle step, a command and an illegal word each keep the invariant. -/
theorem stepKeepsTheInvariant : Obligations.StepKeepsTheInvariant := by
  intro s t hs h
  obtain ⟨-, ⟨-, rfl⟩ | ⟨w, rest, -, ⟨i, -, hexec⟩ | ⟨why, -, rfl⟩⟩⟩ := step_next_cases h
  · exact hs.beginStep
  · exact exec_keeps_inv (hs.accept rest) hexec
  · exact (hs.accept rest).raise _

/-- Settles O58. -/
theorem invariantHoldsAtReset : Obligations.InvariantHoldsAtReset :=
  ⟨rfl, config_default_valid, rfl, by simp [State.reset]⟩

/-! ### The host's side -/

/-- No command changes the words on offer or the parameters (`10_state.md` R34). -/
theorem exec_keepsHost {i : Instr} {s t : State} (h : exec i s = .next t) : KeepsHost s t := by
  rcases exec_next_cases h with ⟨c, rfl⟩ | ⟨u, v, rfl, -, -, hhost, -⟩
  · exact ⟨rfl, rfl⟩
  · exact hhost

/-- Settles O10: neither an idle step nor a fault writes the parameters, and no command does. -/
theorem stepKeepsTheParameters : Obligations.StepKeepsTheParameters := by
  intro s t h
  obtain ⟨-, ⟨-, rfl⟩ | ⟨w, rest, -, ⟨i, -, hexec⟩ | ⟨why, -, rfl⟩⟩⟩ := step_next_cases h
  · rfl
  · exact (exec_keepsHost hexec).2
  · rfl

/-! ### STATUS -/

theorem State.status_busy (s : State) : s.status.extractLsb' 0 1 = BitVec.ofBool s.busy :=
  BitVec.extractLsb'_append_eq_right

theorem State.status_inited (s : State) : s.status.extractLsb' 1 1 = BitVec.ofBool s.inited := by
  rw [State.status, BitVec.extractLsb'_append_eq_of_le (by omega)]
  exact BitVec.extractLsb'_append_eq_right

theorem State.status_fault (s : State) : s.status.extractLsb' 2 1 = BitVec.ofBool s.fault := by
  rw [State.status, BitVec.extractLsb'_append_eq_of_le (by omega), BitVec.extractLsb'_append_eq_of_le (by omega)]
  exact BitVec.extractLsb'_append_eq_right

theorem State.status_fcode (s : State) : s.status.extractLsb' 3 2 = s.fcode := by
  rw [State.status, BitVec.extractLsb'_append_eq_of_le (by omega), BitVec.extractLsb'_append_eq_of_le (by omega),
    BitVec.extractLsb'_append_eq_of_le (by omega)]
  exact BitVec.extractLsb'_append_eq_right

theorem State.status_reserved (s : State) : s.status.extractLsb' 5 3 = 0#3 := by
  rw [State.status, BitVec.extractLsb'_append_eq_of_le (by omega), BitVec.extractLsb'_append_eq_of_le (by omega),
    BitVec.extractLsb'_append_eq_of_le (by omega)]
  exact BitVec.extractLsb'_append_eq_left

/-- Settles O14: the field lemmas, and the invariant's clause on FCODE. -/
theorem statusRegisterLayout : Obligations.StatusRegisterLayout := by
  refine ⟨fun s => ⟨s.status_busy, s.status_inited, s.status_fault, s.status_fcode, s.status_reserved, rfl,
    fun _ _ => ⟨rfl, rfl, rfl⟩, fun hinv hfault => ?_⟩, by decide⟩
  obtain ⟨-, -, -, hlatch⟩ := hinv
  rw [s.status_fcode, hlatch.1 hfault]

/-! ### The effect of a command -/

/-- What a command that passes its checks does before it completes. -/
def effect (i : Instr) (s : State) : State :=
  match i with
  | .copy dst src n => (s.enter .mover).onPort (fun p => p.copyUp dst src n.toNat)
  | .move dst src n => (s.enter .mover).onPort (fun p => p.move dst src n)
  | .wcopy dst src n => (s.enter .mover).onPort (fun p => p.copyWords dst src n.toNat)
  | .enca _ _ => s.enter .encode
  | .encc _ _ => s.enter .encode
  | .init => ((s.setCursor 0#8 0#8).setAttr DEFAULT_ATTR).clearGrid.setInited
  | .clear => s.clearGrid
  | .setfg color => s.setAttr (encodeAttribute color (attrBg s.attr))
  | .setbg color => s.setAttr (encodeAttribute (attrFg s.attr) color)
  | .goto xv yv => s.setCursor xv yv
  | .putc ch => (s.placeChar ch).advance.adjust ch

/-- The cursor is in range where the command is PUTC, the one command that checks it (`44_console_driver.md` R170). -/
def CursorChecked (i : Instr) (s : State) : Prop :=
  ∀ ch, i = .putc ch → s.col.toNat < 80 ∧ s.row.toNat < 25

/-- How a command that takes a step ends: in a fault, being one that needs INITED = 1, or complete with its effect. -/
def EndsIn (i : Instr) (s t : State) : Prop :=
  (needsInited i = true ∧ ∃ c, t = s.raise c) ∨ (CursorChecked i s ∧ ∃ v, t = (effect i s).complete v)

theorem EndsIn.of_requireInited {i : Instr} {s t : State} {v : CellValue} (hi : needsInited i = true)
    (hr : CursorChecked i s) (h : requireInited s (.next ((effect i s).complete v)) = .next t) : EndsIn i s t := by
  rcases (requireInited_next_iff ..).1 h with ⟨-, h'⟩ | ⟨-, rfl⟩
  · cases h'
    exact .inr ⟨hr, v, rfl⟩
  · exact .inl ⟨hi, _, rfl⟩

theorem exec_endsIn {i : Instr} {s t : State} (h : exec i s = .next t) : EndsIn i s t := by
  cases i with
  | copy | move | wcopy =>
    obtain ⟨-, -, ht⟩ := (runMover_next_iff ..).1 h
    exact .inr ⟨nofun, _, ht⟩
  | enca | encc | init =>
    cases h
    exact .inr ⟨nofun, _, rfl⟩
  | clear | setfg | setbg | goto => exact .of_requireInited rfl nofun h
  | putc ch =>
    rcases (execPutc_next_iff ..).1 h with ⟨-, rfl⟩ | ⟨-, -, rfl⟩ | ⟨-, hr, rfl⟩
    · exact .inl ⟨rfl, _, rfl⟩
    · exact .inl ⟨rfl, _, rfl⟩
    · exact .inr ⟨fun _ _ => hr, _, rfl⟩

/-! ### PUTC's effect, step by step -/

/-- The generic advance of a PUTC starts from the cursor that the placement left in range. -/
theorem State.advance_placeChar_spec {s : State} (ch : Byte) (hr : s.col.toNat < 80 ∧ s.row.toNat < 25) :
    AdvancedTo (s.placeChar ch) (s.placeChar ch).advance := by
  obtain ⟨hcol, hrow, -⟩ := s.placeChar_keeps ch
  exact State.advance_spec _ (hcol ▸ hr.1) (hrow ▸ hr.2)

theorem advCol_placeChar (s : State) (ch : Byte) : advCol (s.placeChar ch) = advCol s := by
  obtain ⟨hcol, -⟩ := s.placeChar_keeps ch
  rw [advCol, hcol, advCol]

theorem advRow_placeChar (s : State) (ch : Byte) : advRow (s.placeChar ch) = advRow s := by
  obtain ⟨hcol, hrow, -⟩ := s.placeChar_keeps ch
  rw [advRow, hcol, hrow, advRow]

theorem effect_putc_keeps {s : State} (ch : Byte) (hr : s.col.toNat < 80 ∧ s.row.toNat < 25) :
    (effect (.putc ch) s).attr = s.attr ∧ (effect (.putc ch) s).inited = s.inited := by
  obtain ⟨-, -, hattr, ⟨hinited, -⟩, -⟩ := s.placeChar_keeps ch
  have adv := State.advance_placeChar_spec ch hr
  obtain ⟨hattr', ⟨hinited', -⟩, -⟩ := (s.placeChar ch).advance.adjust_keeps ch
  exact ⟨by rw [effect, hattr', adv.attr, hattr], by rw [effect, hinited', adv.status.1, hinited]⟩

/-! ### INITED -/

theorem effect_inited {i : Instr} {s : State} (hr : CursorChecked i s) :
    (effect i s).inited = (s.inited || decide (i = .init)) := by
  cases i with
  | init => simp [effect]
  | putc ch => simp [(effect_putc_keeps ch (hr ch rfl)).2]
  | _ => simp [effect]

/-- Settles O15: a fault keeps INITED and is none of INIT's, and of the effects only INIT's sets it. -/
theorem onlyInitSetsInited : Obligations.OnlyInitSetsInited := by
  intro i s t h
  rcases exec_endsIn h with ⟨hneeds, c, rfl⟩ | ⟨hr, v, rfl⟩
  · have hinit : i ≠ .init := by rintro rfl; cases hneeds
    simp [hinit]
  · exact effect_inited hr

/-! ### The console registers -/

theorem effect_attr {i : Instr} {s : State} (hr : CursorChecked i s)
    (hi : i ≠ .init ∧ (∀ c, i ≠ .setfg c) ∧ (∀ c, i ≠ .setbg c)) : (effect i s).attr = s.attr := by
  obtain ⟨hinit, hfg, hbg⟩ := hi
  cases i with
  | init => exact absurd rfl hinit
  | setfg c => exact absurd rfl (hfg c)
  | setbg c => exact absurd rfl (hbg c)
  | putc ch => exact (effect_putc_keeps ch (hr ch rfl)).1
  | _ => rfl

theorem effect_cursor {i : Instr} {s : State}
    (hi : i ≠ .init ∧ (∀ x y, i ≠ .goto x y) ∧ (∀ ch, i ≠ .putc ch)) :
    (effect i s).col = s.col ∧ (effect i s).row = s.row := by
  obtain ⟨hinit, hgoto, hputc⟩ := hi
  cases i with
  | init => exact absurd rfl hinit
  | goto x y => exact absurd rfl (hgoto x y)
  | putc ch => exact absurd rfl (hputc ch)
  | _ => exact ⟨rfl, rfl⟩

/-- Settles O17: a fault keeps all three registers, and the effects write them as listed. -/
theorem registersAreWrittenOnlyAsListed : Obligations.RegistersAreWrittenOnlyAsListed := by
  intro i s t h
  rcases exec_endsIn h with ⟨-, c, rfl⟩ | ⟨hr, v, rfl⟩
  · exact ⟨fun _ => rfl, fun _ => ⟨rfl, rfl⟩⟩
  · exact ⟨effect_attr hr, effect_cursor⟩

/-- The block with other values in the three console registers. -/
def State.setRegisters (s : State) (col row attr : Byte) : State := (s.setCursor col row).setAttr attr

/-- Before INIT the checks of R205 stop every command that reads a console register. -/
theorem exec_of_not_inited {i : Instr} {s : State} (hs : s.inited = false) (hi : needsInited i = true) :
    exec i s = .next (s.raise .notInitialised) := by
  cases i with
  | clear | setfg | setbg | goto | putc => exact requireInited_of_not_inited hs _
  | _ => cases hi

/-- INIT overwrites the three registers before it uses them (`43_console_state.md` R151). -/
theorem exec_init_setRegisters (s : State) (col row attr : Byte) :
    exec .init (s.setRegisters col row attr) = exec .init s := rfl

/-- A mover command neither reads nor writes the registers. -/
theorem runMover_setRegisters {dst src n : Addr} {f : MemPort → MemPort} {s t : State} (col row attr : Byte)
    (h : runMover dst src n f s = .next t) :
    runMover dst src n f (s.setRegisters col row attr) = .next (t.setRegisters col row attr) := by
  obtain ⟨hsrc, hdst, rfl⟩ := (runMover_next_iff ..).1 h
  exact (runMover_next_iff ..).2 ⟨hsrc, hdst, rfl⟩

/-- Before INIT a command other than INIT carries the registers along and reads none of them. -/
theorem exec_setRegisters {i : Instr} {s t : State} (col row attr : Byte) (hs : s.inited = false)
    (hi : i ≠ .init) (h : exec i s = .next t) :
    exec i (s.setRegisters col row attr) = .next (t.setRegisters col row attr) := by
  by_cases hneeds : needsInited i = true
  · rw [exec_of_not_inited hs hneeds] at h
    cases h
    exact exec_of_not_inited (s := s.setRegisters col row attr) hs hneeds
  · cases i with
    | copy | move | wcopy => exact runMover_setRegisters col row attr h
    | enca | encc => cases h; rfl
    | init => exact absurd rfl hi
    | _ => exact absurd rfl hneeds

/-- Settles O16: INIT does the same whatever the registers hold, and every other command carries them along. -/
theorem registersAreNotReadBeforeInit : Obligations.RegistersAreNotReadBeforeInit := by
  intro i s t col row attr hs h
  by_cases hi : i = .init
  · subst hi
    exact ⟨t, (exec_init_setRegisters s col row attr).trans h, rfl, rfl, rfl, rfl, ⟨rfl, rfl, rfl⟩, ⟨rfl, rfl⟩,
      fun _ => ⟨rfl, rfl, rfl⟩⟩
  · exact ⟨t.setRegisters col row attr, exec_setRegisters col row attr hs hi h, rfl, rfl, rfl, rfl,
      ⟨rfl, rfl, rfl⟩, ⟨rfl, rfl⟩, fun h' => absurd h' hi⟩

/-! ### The phases -/

/-- The adjustment enters ADJUST, and after it CLEARING or nothing (`44_console_driver.md` R180). -/
theorem State.adjust_phases (s : State) (ch : Byte) :
    (s.adjust ch).phases = .adjust :: s.phases ∨ (s.adjust ch).phases = .clearing :: .adjust :: s.phases := by
  rcases s.adjust_cases ch with ⟨-, e⟩ | ⟨-, -, e⟩ | ⟨-, -, -, e⟩ | ⟨-, -, -, -, e⟩ | ⟨-, -, -, -, e⟩ <;> rw [e]
  case inr.inr.inl => exact .inr rfl
  all_goals exact .inl rfl

/-- The phases of PUTC follow the table of R30, with or without a placement, a scroll and a clear. -/
theorem effect_putc_phases {s : State} (ch : Byte) (hr : s.col.toNat < 80 ∧ s.row.toNat < 25)
    (hs : s.phases = []) : Phase.path .idle (effect (.putc ch) s).phases.reverse = true := by
  obtain ⟨-, -, -, -, -, hplace⟩ := s.placeChar_keeps ch
  have hadvance := (State.advance_placeChar_spec ch hr).phases
  rw [hplace, hs] at hadvance
  rcases (s.placeChar ch).advance.adjust_phases ch with e | e <;>
    rw [effect, e, hadvance] <;> split_ifs <;> rfl

theorem effect_phases {i : Instr} {s : State} (hr : CursorChecked i s) (hs : s.phases = []) :
    Phase.path .idle (effect i s).phases.reverse = true := by
  cases i with
  | putc ch => exact effect_putc_phases ch (hr ch rfl) hs
  | _ => simp [effect, hs, Phase.path, Phase.entersFrom, Phase.returnsToIdle]

/-- Settles O19: an idle step and a fault enter no phase, and a command's effect enters its own from none. -/
theorem phasesFollowTheTable : Obligations.PhasesFollowTheTable := by
  intro s t h
  obtain ⟨hready, ⟨-, rfl⟩ | ⟨w, rest, -, ⟨i, -, hexec⟩ | ⟨why, -, rfl⟩⟩⟩ := step_next_cases h
  · exact ⟨rfl, ((cmdReady_iff s).1 hready).2⟩
  · rcases exec_endsIn hexec with ⟨-, c, rfl⟩ | ⟨hr, v, rfl⟩
    · exact ⟨rfl, rfl⟩
    · exact ⟨effect_phases hr rfl, rfl⟩
  · exact ⟨rfl, rfl⟩

/-! ### The cursor after PUTC -/

/-- The generic advance leaves a cursor in range (`44_console_driver.md` R181). -/
theorem advCol_lt (s : State) : advCol s < 80 := by unfold advCol; split_ifs <;> omega

theorem advRow_lt {s : State} (hr : s.row.toNat < 25) : advRow s < 25 := by
  unfold advRow; split_ifs <;> omega

/-- From a cursor in range every adjustment leaves the column in range, and the row as it is but for a line-feed,
which leaves the next one (R174 to R178). -/
theorem State.adjust_cursor (s : State) (ch : Byte) (hcol : s.col.toNat < 80) (hrow : s.row.toNat < 25)
    (hcfg : s.cfg.lf ≠ s.cfg.bs) :
    (s.adjust ch).col.toNat < 80 ∧
    (s.adjust ch).row.toNat = if ch = s.cfg.lf then s.row.toNat + 1 else s.row.toNat := by
  rcases s.adjust_cases ch with
    ⟨hch, e⟩ | ⟨hch, -, e⟩ | ⟨-, -, hch, e⟩ | ⟨-, -, hch, -, e⟩ | ⟨-, hch, -, -, e⟩ <;> rw [e]
  case inl =>
    rw [if_neg (by rw [hch]; exact hcfg.symm)]
    exact ⟨by simp [backspaceCol_toNat]; omega, rfl⟩
  case inr.inl =>
    rw [if_pos hch]
    exact ⟨by simp, by simp; omega⟩
  all_goals simp [hch, hcol]

/-- The control codes are distinct (`00_scope.md` R6). -/
theorem lf_ne_bs_of_valid {g : Config} (h : g.valid = true) : g.lf ≠ g.bs := by
  obtain ⟨-, -, hcodes, -⟩ := (valid_iff g).1 h
  simp at hcodes
  tauto

/-- Settles O51: the generic advance leaves the cursor in range, and only a line-feed's adjustment takes it out. -/
theorem putcKeepsTheCursorInRangeButForLineFeed : Obligations.PutcKeepsTheCursorInRangeButForLineFeed := by
  intro ch s hinited hcol hrow hvalid
  refine ⟨_, execPutc_runs ch hinited ⟨hcol, hrow⟩, ?_⟩
  obtain ⟨-, -, -, -, ⟨-, hcfg⟩, -⟩ := s.placeChar_keeps ch
  have adv := State.advance_placeChar_spec ch ⟨hcol, hrow⟩
  have hcfg' : (s.placeChar ch).advance.cfg = s.cfg := adv.host.2.trans hcfg
  have hcol' := adv.col.trans (advCol_placeChar s ch)
  have hrow' := adv.row.trans (advRow_placeChar s ch)
  have hlt := advRow_lt hrow
  obtain ⟨hc, hr⟩ := (s.placeChar ch).advance.adjust_cursor ch (hcol' ▸ advCol_lt s) (hrow' ▸ hlt)
    (hcfg' ▸ lf_ne_bs_of_valid hvalid)
  rw [hcfg', hrow'] at hr
  refine ⟨hc, ?_⟩
  rw [State.complete_row, hr]
  split_ifs with hch
  · exact ⟨by omega, fun h => ⟨hch, by omega⟩, fun h => by omega⟩
  · exact ⟨by omega, fun h => by omega, fun h => absurd h.1 hch⟩

end Sys2Proof.Machine
end

section
/-! The statements about `Mem` and the memory master port (`20_memory.md`): the canonical form, which accesses a
command makes and in which order, that they account for `Mem` and stay in MemMap, and what no console command
writes. -/

namespace Sys2Proof.Machine

/-! ### The canonical form -/

/-- A memory in canonical form lists its first byte because it does not read as an unlisted one. -/
theorem Memory.read_head_ne_unlisted {lo k : Nat} {v : Byte} {m : Memory}
    (hm : Memory.wfFrom lo ((k, v) :: m) = true) : Memory.read ((k, v) :: m) k ≠ Memory.unlisted := by
  obtain ⟨-, -, hv, -⟩ := (Memory.wfFrom_cons ..).1 hm
  rwa [Memory.read_cons, if_pos rfl]

/-- A memory that reads like a canonical one lists no first address above the other's. -/
theorem Memory.head_le_of_reads {lo lo' k k' : Nat} {v v' : Byte} {m m' : Memory}
    (hm : Memory.wfFrom lo ((k, v) :: m) = true) (hm' : Memory.wfFrom lo' ((k', v') :: m') = true)
    (hread : Memory.read ((k, v) :: m) k = Memory.read ((k', v') :: m') k) : k' ≤ k := by
  obtain ⟨-, hk', hv', htail⟩ := (Memory.wfFrom_cons ..).1 hm'
  by_contra hlt
  have hwf : Memory.wfFrom k' ((k', v') :: m') = true := (Memory.wfFrom_cons ..).2 ⟨le_rfl, hk', hv', htail⟩
  exact Memory.read_head_ne_unlisted hm
    (hread.trans (Memory.read_eq_unlisted_of_lt _ k' k hwf (by omega)))

/-- The bytes after a common first one read alike, since neither memory lists that address again. -/
theorem Memory.tail_reads {k : Nat} {v v' : Byte} {m m' : Memory} (hm : Memory.wfFrom (k + 1) m = true)
    (hm' : Memory.wfFrom (k + 1) m' = true) {a : Nat}
    (hread : Memory.read ((k, v) :: m) a = Memory.read ((k, v') :: m') a) : Memory.read m a = Memory.read m' a := by
  by_cases ha : k = a
  · rw [Memory.read_eq_unlisted_of_lt m (k + 1) a hm (by omega),
      Memory.read_eq_unlisted_of_lt m' (k + 1) a hm' (by omega)]
  · rwa [Memory.read_cons, Memory.read_cons, if_neg ha, if_neg ha] at hread

theorem Memory.eq_of_reads {m m' : Memory} {lo lo' : Nat} (hm : Memory.wfFrom lo m = true)
    (hm' : Memory.wfFrom lo' m' = true) (hread : ∀ a < 2 ^ 32, Memory.read m a = Memory.read m' a) : m = m' := by
  induction m generalizing m' lo lo' with
  | nil =>
    cases m' with
    | nil => rfl
    | cons c' m' =>
      obtain ⟨-, hk', -, -⟩ := (Memory.wfFrom_cons ..).1 hm'
      exact absurd (hread _ hk').symm (Memory.read_head_ne_unlisted hm')
  | cons c m ih =>
    obtain ⟨k, v⟩ := c
    obtain ⟨-, hk, -, htail⟩ := (Memory.wfFrom_cons ..).1 hm
    cases m' with
    | nil => exact absurd (hread _ hk) (Memory.read_head_ne_unlisted hm)
    | cons c' m' =>
      obtain ⟨k', v'⟩ := c'
      obtain ⟨-, hk', -, htail'⟩ := (Memory.wfFrom_cons ..).1 hm'
      obtain rfl : k = k' := le_antisymm (Memory.head_le_of_reads hm' hm (hread _ hk').symm)
        (Memory.head_le_of_reads hm hm' (hread _ hk))
      have hv : v = v' := by simpa only [Memory.read_cons, if_true] using hread k hk
      rw [hv, ih htail htail' fun a ha => Memory.tail_reads htail htail' (hread a ha)]

/-- Settles O20: the first addresses agree, so do their bytes, and the rest follows by induction. -/
theorem canonicalMemoriesThatReadAlikeAreEqual : Obligations.CanonicalMemoriesThatReadAlikeAreEqual :=
  fun _ _ hm hm' hread => Memory.eq_of_reads hm hm' fun a ha => hread ⟨a, ha⟩

/-! ### The accesses of a command -/

/-- The accesses of a command that passes its checks, in their order. -/
def effectActions (i : Instr) (s : State) : List Action :=
  match i with
  | .copy dst src n => upActions dst src n.toNat
  | .move dst src n =>
    if 0 < (dst - src).toNat ∧ (dst - src).toNat < n.toNat
      then downActions dst src n.toNat else upActions dst src n.toNat
  | .wcopy dst src n => wordActions dst src n.toNat
  | .enca _ _ => []
  | .encc _ _ => []
  | .init => fillActions s.cfg 0 2000
  | .clear => fillActions s.cfg 0 2000
  | .setfg _ => []
  | .setbg _ => []
  | .goto _ _ => []
  | .putc ch =>
    (if s.cfg.isControl ch = true then [] else [(.write, s.cfg.cellAddr s.col s.row, .half)]) ++
    (if AtLastCell s then scrollActions s.cfg else []) ++
    (if ch = s.cfg.ff then fillActions s.cfg 0 2000 else [])

/-- The control codes are distinct (`00_scope.md` R6). -/
theorem ff_ne_of_valid {g : Config} (h : g.valid = true) : g.ff ≠ g.bs ∧ g.ff ≠ g.lf := by
  obtain ⟨-, -, hcodes, -⟩ := (valid_iff g).1 h
  simp only [List.nodup_cons, List.mem_cons, not_or] at hcodes
  tauto

/-- What the adjustment records: FF alone makes accesses, those of the clear, and goes on to CLEARING
(`44_console_driver.md` R176). -/
theorem State.adjust_records (s : State) (ch : Byte) (hff : s.cfg.ff ≠ s.cfg.bs ∧ s.cfg.ff ≠ s.cfg.lf) :
    Made s.port (s.adjust ch).port (if ch = s.cfg.ff then fillActions s.cfg 0 2000 else []) ∧
    (s.adjust ch).phases = (if ch = s.cfg.ff then [.clearing] else []) ++ .adjust :: s.phases := by
  by_cases hch : ch = s.cfg.ff
  · rw [if_pos hch, if_pos hch, hch, State.adjust_ff s hff.1 hff.2]
    exact ⟨State.clearGrid_made (s.enter .adjust), rfl⟩
  · rw [if_neg hch, if_neg hch]
    rcases s.adjust_cases ch with ⟨-, e⟩ | ⟨-, -, e⟩ | ⟨h, -⟩ | ⟨-, -, -, -, e⟩ | ⟨-, -, -, -, e⟩
    case inr.inr.inl => exact absurd h hch
    all_goals rw [e]; exact ⟨Made.refl _, rfl⟩

theorem atLastCell_placeChar (s : State) (ch : Byte) : AtLastCell (s.placeChar ch) ↔ AtLastCell s := by
  obtain ⟨hcol, hrow, -⟩ := s.placeChar_keeps ch
  rw [AtLastCell, hcol, hrow]

theorem advance_placeChar_cfg {s : State} (ch : Byte) (hr : s.col.toNat < 80 ∧ s.row.toNat < 25) :
    (s.placeChar ch).advance.cfg = s.cfg := by
  obtain ⟨-, -, -, -, ⟨-, hcfg⟩, -⟩ := s.placeChar_keeps ch
  exact (State.advance_placeChar_spec ch hr).host.2.trans hcfg

/-- PUTC makes the accesses of its three steps, one after another (R179). -/
theorem effect_putc_made {s : State} (ch : Byte) (hvalid : s.cfg.valid = true)
    (hr : s.col.toNat < 80 ∧ s.row.toNat < 25) :
    Made s.port (effect (.putc ch) s).port (effectActions (.putc ch) s) := by
  have hcfg := advance_placeChar_cfg ch hr
  have hadvance := (State.advance_placeChar_spec ch hr).made
  obtain ⟨-, -, -, -, ⟨-, hplace⟩, -⟩ := s.placeChar_keeps ch
  obtain ⟨hadjust, -⟩ := (s.placeChar ch).advance.adjust_records ch (hcfg ▸ ff_ne_of_valid hvalid)
  rw [hcfg] at hadjust
  simp only [atLastCell_placeChar, hplace] at hadvance
  exact ((s.place_made ch).trans hadvance).trans hadjust

/-- The phases of PUTC, latest first (R180). -/
theorem effect_putc_phases_eq {s : State} (ch : Byte) (hvalid : s.cfg.valid = true)
    (hr : s.col.toNat < 80 ∧ s.row.toNat < 25) :
    (effect (.putc ch) s).phases =
      (if ch = s.cfg.ff then [.clearing] else []) ++ .adjust ::
        ((if AtLastCell s then [.scrollFill, .scrollMove] else []) ++ .advance ::
          ((if s.cfg.isControl ch = true then [] else [.place]) ++ s.phases)) := by
  have hcfg := advance_placeChar_cfg ch hr
  have hadvance := (State.advance_placeChar_spec ch hr).phases
  obtain ⟨-, -, -, -, -, hplace⟩ := s.placeChar_keeps ch
  obtain ⟨-, hadjust⟩ := (s.placeChar ch).advance.adjust_records ch (hcfg ▸ ff_ne_of_valid hvalid)
  rw [effect, hadjust, hcfg, hadvance, hplace]
  simp only [atLastCell_placeChar]

/-- Settles O52: the records of the placement, the generic advance and the adjustment, put together. -/
theorem putcAccessesAndPhases : Obligations.PutcAccessesAndPhases := by
  intro ch s hinited hcol hrow hvalid
  refine ⟨_, execPutc_runs ch hinited ⟨hcol, hrow⟩, ?_, ?_⟩
  · have hactions := Made.actions (effect_putc_made ch hvalid ⟨hcol, hrow⟩)
    simp only [effectActions, ← List.append_assoc] at hactions
    exact hactions
  · have hphases := congrArg List.reverse (effect_putc_phases_eq ch hvalid ⟨hcol, hrow⟩)
    refine hphases.trans ?_
    split_ifs <;> simp

theorem effect_made {i : Instr} {s : State} (hvalid : s.cfg.valid = true) (hr : CursorChecked i s) :
    Made s.port (effect i s).port (effectActions i s) := by
  cases i with
  | copy dst src n => exact Made.copyUp ..
  | move dst src n => exact Made.move ..
  | wcopy dst src n => exact Made.copyWords ..
  | init => exact State.clearGrid_made ((s.setCursor 0#8 0#8).setAttr DEFAULT_ATTR)
  | clear => exact State.clearGrid_made s
  | putc ch => exact effect_putc_made ch hvalid (hr ch rfl)
  | _ => exact Made.refl _

/-- Settles O22: a fault makes no access, and a command that completes has made accesses that account for its
port. -/
theorem accessesAccountForMemory : Obligations.AccessesAccountForMemory := by
  intro i s t h
  rcases exec_next_cases h with ⟨c, rfl⟩ | ⟨u, v, rfl, -, -, -, as, new, hlog, hmem, -⟩
  · exact ⟨[], rfl, rfl⟩
  · exact ⟨new, hlog, hmem⟩

/-! ### MemMap -/

/-- The bytes of every one of these accesses are in MemMap (`20_memory.md` R52). -/
def ActionsMapped (g : Config) (as : List Action) : Prop := ∀ x ∈ as, RegionMapped g x.2.1 x.2.2.bytes

theorem RegionMapped.sub {g : Config} {a : Addr} {n : Nat} (h : RegionMapped g a n) {i m : Nat} (him : i + m ≤ n) :
    RegionMapped g (a + BitVec.ofNat 32 i) m := by
  intro k hk
  rw [BitVec.add_assoc, ← BitVec.ofNat_add]
  exact h (i + k) (by omega)

theorem regionMapped_iff_backs (g : Config) (a n : Addr) : RegionMapped g a n.toNat ↔ g.backs a n.toNat = true :=
  (backs_iff_mapped g a n.toNat n.isLt.le).symm

/-- MemMap contains the grid (R6). -/
theorem grid_mapped {g : Config} (h : g.valid = true) : RegionMapped g g.gridBase 4000 := by
  obtain ⟨-, -, -, -, hgrid⟩ := (valid_iff g).1 h
  exact (backs_iff_mapped g g.gridBase 4000 (by omega)).1 hgrid

theorem ActionsMapped.nil (g : Config) : ActionsMapped g [] := nofun

theorem ActionsMapped.append {g : Config} {as bs : List Action} (h : ActionsMapped g as) (h' : ActionsMapped g bs) :
    ActionsMapped g (as ++ bs) := List.forall_mem_append.2 ⟨h, h'⟩

theorem ActionsMapped.flatMap {g : Config} {is : List Nat} {as : Nat → List Action}
    (h : ∀ i ∈ is, ActionsMapped g (as i)) : ActionsMapped g (is.flatMap as) :=
  List.forall_mem_flatMap.2 h

theorem ActionsMapped.ite {g : Config} {c : Prop} [Decidable c] {as bs : List Action} (h : ActionsMapped g as)
    (h' : ActionsMapped g bs) : ActionsMapped g (if c then as else bs) := by
  split_ifs
  · exact h
  · exact h'

/-- A record of accesses in MemMap stays one when the accesses made since are in MemMap. -/
theorem Made.mapped {p q : MemPort} {as : List Action} {g : Config} (h : Made p q as) (has : ActionsMapped g as)
    (hp : AccessesMapped g p.log) : AccessesMapped g q.log := by
  obtain ⟨new, hlog, -, rfl⟩ := h
  intro x hx
  rw [hlog, List.mem_append, List.mem_reverse] at hx
  rcases hx with hx | hx
  · exact has x.action (List.mem_map_of_mem hx)
  · exact hp x hx

section Mover

variable {g : Config} {dst src : Addr} {n : Nat} (hsrc : RegionMapped g src n) (hdst : RegionMapped g dst n)
include hsrc hdst

theorem transferActions_mapped {w : Width} {i : Nat} (hi : i + w.bytes ≤ n) :
    ActionsMapped g (transferActions dst src w i) := by
  intro x hx
  rcases List.mem_pair.1 hx with rfl | rfl
  · exact hsrc.sub hi
  · exact hdst.sub hi

theorem upActions_mapped : ActionsMapped g (upActions dst src n) :=
  .flatMap fun _ hi => transferActions_mapped hsrc hdst (List.mem_range.1 hi)

theorem downActions_mapped : ActionsMapped g (downActions dst src n) :=
  .flatMap fun _ hi => transferActions_mapped hsrc hdst (List.mem_range.1 (List.mem_reverse.1 hi))

theorem wordActions_mapped : ActionsMapped g (wordActions dst src n) := by
  refine .append (.flatMap fun k hk => ?_) (.flatMap fun j hj => ?_)
  · have := List.mem_range.1 hk
    exact transferActions_mapped hsrc hdst (by simp only [Width.bytes]; omega)
  · have := List.mem_range.1 hj
    exact transferActions_mapped hsrc hdst (by simp only [Width.bytes]; omega)

end Mover

section Grid

variable {g : Config} (hgrid : RegionMapped g g.gridBase 4000)
include hgrid

theorem fillActions_mapped {first count : Nat} (h : first + count ≤ 2000) :
    ActionsMapped g (fillActions g first count) := by
  intro x hx
  obtain ⟨j, hj, rfl⟩ := List.mem_map.1 hx
  have := List.mem_range.1 hj
  exact hgrid.sub (by simp only [Width.bytes]; omega)

theorem scrollActions_mapped : ActionsMapped g (scrollActions g) := by
  have hdst : RegionMapped g g.gridBase 3840 := fun k hk => hgrid k (by omega)
  have hsrc : RegionMapped g (g.gridBase + 160#32) 3840 := hgrid.sub (by omega)
  exact .append (upActions_mapped hsrc hdst) (fillActions_mapped hgrid (by omega))

theorem placeAction_mapped {col row : Byte} (hr : col.toNat < 80 ∧ row.toNat < 25) :
    ActionsMapped g [(.write, g.cellAddr col row, .half)] := by
  intro x hx
  obtain rfl := List.mem_singleton.1 hx
  rw [cellAddr_eq]
  exact hgrid.sub (by simp only [Width.bytes]; omega)

end Grid

/-- The console's accesses lie in the grid, which MemMap contains. -/
theorem effectActions_mapped {i : Instr} {s : State} (hvalid : s.cfg.valid = true) (hr : CursorChecked i s)
    (hi : isMover i = false) : ActionsMapped s.cfg (effectActions i s) := by
  have hgrid := grid_mapped hvalid
  cases i with
  | copy | move | wcopy => cases hi
  | init | clear => exact fillActions_mapped hgrid (by omega)
  | putc ch =>
    exact .append (.append (.ite (.nil _) (placeAction_mapped hgrid (hr ch rfl)))
      (.ite (scrollActions_mapped hgrid) (.nil _))) (.ite (fillActions_mapped hgrid (by omega)) (.nil _))
  | _ => exact .nil _

/-- A mover command takes its step only when both of its regions are in MemMap. -/
theorem effectActions_mapped_of_mover {i : Instr} {s t : State} (hi : isMover i = true) (h : exec i s = .next t) :
    ActionsMapped s.cfg (effectActions i s) := by
  cases i with
  | copy dst src n =>
    obtain ⟨hsrc, hdst, -⟩ := (runMover_next_iff ..).1 h
    exact upActions_mapped ((regionMapped_iff_backs ..).2 hsrc) ((regionMapped_iff_backs ..).2 hdst)
  | move dst src n =>
    obtain ⟨hsrc, hdst, -⟩ := (runMover_next_iff ..).1 h
    have hsrc' := (regionMapped_iff_backs ..).2 hsrc
    have hdst' := (regionMapped_iff_backs ..).2 hdst
    exact .ite (downActions_mapped hsrc' hdst') (upActions_mapped hsrc' hdst')
  | wcopy dst src n =>
    obtain ⟨hsrc, hdst, -⟩ := (runMover_next_iff ..).1 h
    exact wordActions_mapped ((regionMapped_iff_backs ..).2 hsrc) ((regionMapped_iff_backs ..).2 hdst)
  | _ => cases hi

/-- Settles O23: a fault makes no access; the mover's are checked, and the console's lie in the grid. -/
theorem accessesStayInMemMap : Obligations.AccessesStayInMemMap := by
  intro i s t hvalid hlog h
  rw [(exec_keepsHost h).2]
  rcases exec_endsIn h with ⟨-, c, rfl⟩ | ⟨hr, v, rfl⟩
  · exact hlog
  · refine (effect_made hvalid hr).mapped ?_ hlog
    cases hi : isMover i with
    | true => exact effectActions_mapped_of_mover hi h
    | false => exact effectActions_mapped hvalid hr hi

theorem runMover_of_not_mapped {dst src n : Addr} {s : State} (f : MemPort → MemPort)
    (h : ¬ (RegionMapped s.cfg src n.toNat ∧ RegionMapped s.cfg dst n.toNat)) :
    runMover dst src n f s = .fault .unbackedAccess := by
  rw [regionMapped_iff_backs, regionMapped_iff_backs, ← Bool.and_eq_true] at h
  exact if_neg h

/-- Settles O30: the three commands share the mover's check. -/
theorem moverOutsideMemMapHasNoStep : Obligations.MoverOutsideMemMapHasNoStep :=
  fun _ _ _ _ h => ⟨runMover_of_not_mapped _ h, runMover_of_not_mapped _ h, runMover_of_not_mapped _ h⟩

/-! ### The grid window -/

theorem KeepsOutsideGrid.trans {s t u : State} (h : KeepsOutsideGrid s t) (h' : KeepsOutsideGrid t u)
    (hcfg : t.cfg = s.cfg) : KeepsOutsideGrid s u :=
  fun a ha => (h' a (hcfg ▸ ha)).trans (h a ha)

/-- The three steps of PUTC write the cell at the cursor, the scroll's cells and the clear's (`20_memory.md`
R67). -/
theorem effect_putc_keepsOutsideGrid {s : State} (ch : Byte) (hr : s.col.toNat < 80 ∧ s.row.toNat < 25) :
    KeepsOutsideGrid s (effect (.putc ch) s) := by
  obtain ⟨-, -, -, -, ⟨-, hcfg⟩, -⟩ := s.placeChar_keeps ch
  have hplace := s.place_keepsOutsideGrid ch hr.1 hr.2
  have hadvance := (State.advance_placeChar_spec ch hr).outside
  obtain ⟨-, -, -, hadjust, -⟩ := (s.placeChar ch).advance.adjust_keeps ch
  exact (hplace.trans hadvance hcfg).trans hadjust (advance_placeChar_cfg ch hr)

theorem effect_keepsOutsideGrid {i : Instr} {s : State} (hr : CursorChecked i s) (hi : isMover i = false) :
    KeepsOutsideGrid s (effect i s) := by
  cases i with
  | copy | move | wcopy => cases hi
  | init => exact ((s.setCursor 0#8 0#8).setAttr DEFAULT_ATTR).clearGrid_keepsOutsideGrid
  | clear => exact s.clearGrid_keepsOutsideGrid
  | putc ch => exact effect_putc_keepsOutsideGrid ch (hr ch rfl)
  | _ => exact fun _ _ => rfl

/-- Settles O24: a fault leaves the port as it is, and so do the effects of the five commands; the other console
commands write cells of the grid. -/
theorem consoleWritesStayInTheGrid : Obligations.ConsoleWritesStayInTheGrid := by
  intro i s t h
  rcases exec_endsIn h with ⟨-, c, rfl⟩ | ⟨hr, v, rfl⟩
  · exact ⟨fun _ _ _ => rfl, fun _ => rfl⟩
  · refine ⟨effect_keepsOutsideGrid hr, fun hi => ?_⟩
    rcases hi with ⟨_, _, rfl⟩ | ⟨_, _, rfl⟩ | ⟨_, rfl⟩ | ⟨_, rfl⟩ | ⟨_, _, rfl⟩ <;> rfl

end Sys2Proof.Machine
end

section
/-! The encoding of the commands (`30_encoding.md` R85 to R89): a word and its fields, decoding against encoding,
and the opcode map's rows by opcode and reserved operand bits. -/

namespace Sys2Proof

/-! ### A word and its fields -/

@[simp] theorem Fields.ofWord_toWord (f : Fields) : Fields.ofWord f.toWord = f :=
  Fields.mk.injEq .. |>.mpr
    ⟨BitVec.extractLsb'_append_eq_of_le (by decide)
        |>.trans (BitVec.extractLsb'_append_eq_of_le (by decide))
        |>.trans BitVec.extractLsb'_append_eq_left,
      BitVec.extractLsb'_append_eq_of_le (by decide)
        |>.trans (BitVec.extractLsb'_append_eq_of_le (by decide))
        |>.trans BitVec.extractLsb'_append_eq_right,
      BitVec.extractLsb'_append_eq_of_le (by decide) |>.trans BitVec.extractLsb'_append_eq_right,
      BitVec.extractLsb'_append_eq_right⟩

@[simp] theorem Fields.toWord_ofWord (w : CommandWord) : (Fields.ofWord w).toWord = w := by
  have h : w.extractLsb' 96 4 ++ w.extractLsb' 64 32 ++ w.extractLsb' 32 32 = w.extractLsb' 32 68 := by
    rw [BitVec.extractLsb'_append_extractLsb'_eq_extractLsb' (by rfl)]
    exact BitVec.extractLsb'_append_extractLsb'_eq_extractLsb' rfl
  calc
    _ = w.extractLsb' 32 68 ++ w.extractLsb' 0 32 := congrArg (· ++ w.extractLsb' 0 32) h
    _ = w.extractLsb' 0 100 := BitVec.extractLsb'_append_extractLsb'_eq_extractLsb' rfl
    _ = w := BitVec.extractLsb'_eq_self

theorem Fields.toWord_inj {f g : Fields} : f.toWord = g.toWord ↔ f = g :=
  (Function.LeftInverse.injective Fields.ofWord_toWord).eq_iff

theorem Fields.toWord_and (f g : Fields) :
    f.toWord &&& g.toWord = (Fields.mk (f.op &&& g.op) (f.a &&& g.a) (f.b &&& g.b) (f.c &&& g.c)).toWord := by
  have h : (f.op ++ f.a ++ f.b ++ f.c) &&& (g.op ++ g.a ++ g.b ++ g.c) =
      (f.op &&& g.op) ++ (f.a &&& g.a) ++ (f.b &&& g.b) ++ (f.c &&& g.c) := by
    simp only [BitVec.and_append]
  exact h

/-! ### Reserved operand bits -/

/-- A command that names no bit of an operand word reserves all of it. -/
@[simp] theorem reservedZero_none (v : BitVec 32) : reservedZero 0 v = (v == 0#32) := by
  rw [reservedZero, BitVec.ushiftRight_zero]

/-- The reserved bits of an operand word are 0 when all its bits from `k` on are. -/
theorem reservedZero_iff_getLsbD (k : Nat) (v : BitVec 32) :
    reservedZero k v = true ↔ ∀ i, k ≤ i → v.getLsbD i = false := by
  rw [reservedZero, beq_iff_eq, BitVec.eq_of_getLsbD_eq_iff]
  simp only [BitVec.getLsbD_ushiftRight, BitVec.getLsbD_zero]
  constructor
  · intro h i hi
    by_cases hlt : i < 32
    · simpa [hi] using h (i - k) (by omega)
    · exact BitVec.getLsbD_of_ge _ _ (by omega)
  · exact fun h i _ => h (k + i) (by omega)

/-- The low bits of an operand word whose reserved bits are 0 are all of it. -/
theorem setWidth_of_reservedZero {k : Nat} {v : BitVec 32} (h : reservedZero k v = true) :
    (v.setWidth k).setWidth 32 = v := by
  rw [reservedZero_iff_getLsbD] at h
  apply BitVec.eq_of_getLsbD_eq
  intro i hi
  rw [BitVec.getLsbD_setWidth, BitVec.getLsbD_setWidth]
  by_cases hk : k ≤ i
  · rw [h i hk, Bool.and_false, Bool.and_false]
  · simp [hi, Nat.not_le.1 hk]

/-- The mask of a row keeps the reserved bits of an operand word. -/
theorem and_shiftLeft_allOnes_eq_zero_iff (k : Nat) (v : BitVec 32) :
    v &&& (BitVec.allOnes 32 <<< k) = 0#32 ↔ reservedZero k v = true := by
  rw [reservedZero_iff_getLsbD, BitVec.eq_of_getLsbD_eq_iff]
  simp only [BitVec.getLsbD_and, BitVec.getLsbD_shiftLeft, BitVec.getLsbD_allOnes, BitVec.getLsbD_zero]
  constructor
  · intro h i hi
    by_cases hlt : i < 32
    · simpa [hlt, Nat.not_lt.2 hi, show i - k < 32 by omega] using h i hlt
    · exact BitVec.getLsbD_of_ge _ _ (by omega)
  · intro h i _
    by_cases hk : k ≤ i
    · simp [h i hk]
    · simp [show i < k by omega]

/-! ### Decoding and encoding -/

theorem guardReserved_eq_legal {op : BitVec 4} {zero : Bool} {i j : Instr} :
    guardReserved op zero i = .legal j ↔ zero = true ∧ i = j := by
  cases zero <;> simp [guardReserved]

theorem decodeFields_encodeFields (i : Instr) : decodeFields (encodeFields i) = .legal i := by
  cases i with
  | copy | move | wcopy | init | clear => rfl
  | enca | encc | setfg | setbg | goto | putc =>
    simp [decodeFields, encodeFields, Instr.opcode, guardReserved_eq_legal, Laws.EncodedLegal.reservedZero_setWidth]

theorem Fields.ext_toNat {f g : Fields} (hop : f.op.toNat = g.op.toNat) (ha : f.a = g.a) (hb : f.b = g.b)
    (hc : f.c = g.c) : f = g := by
  obtain ⟨op, a, b, c⟩ := f
  obtain rfl := BitVec.eq_of_toNat_eq hop
  subst ha hb hc
  rfl

/-- The fields of a legal word are those of the command they decode to. -/
theorem encodeFields_of_decodeFields {f : Fields} {i : Instr} (h : decodeFields f = .legal i) :
    encodeFields i = f := by
  unfold decodeFields at h
  split at h
  case h_1 hop | h_2 hop | h_3 hop =>
    cases h
    exact Fields.ext_toNat hop.symm rfl rfl rfl
  case h_12 => cases h
  case h_4 hop | h_5 hop | h_6 hop | h_7 hop | h_8 hop | h_9 hop | h_10 hop | h_11 hop =>
    obtain ⟨hzero, rfl⟩ := guardReserved_eq_legal.1 h
    simp only [Bool.and_eq_true, beq_iff_eq] at hzero
    refine Fields.ext_toNat hop.symm ?_ ?_ ?_ <;> simp [encodeFields, setWidth_of_reservedZero, hzero]

/-- Nothing but a reserved opcode or a reserved operand bit makes a word illegal (R88). -/
theorem decodeFields_of_legal {f : Fields} (h : f.legal = true) : ∃ i, decodeFields f = .legal i := by
  unfold decodeFields
  split
  case h_1 | h_2 | h_3 => exact ⟨_, rfl⟩
  case h_12 => simp [Fields.legal, operandWidths, *] at h
  case h_4 hop | h_5 hop | h_6 hop | h_7 hop | h_8 hop | h_9 hop | h_10 hop | h_11 hop =>
    refine ⟨_, guardReserved_eq_legal.2 ⟨?_, rfl⟩⟩
    simpa [Fields.legal, operandWidths, hop] using h

theorem encodedLegal (i : Instr) : Laws.EncodedLegal.Statement i := by
  cases i with
  | copy => exact Laws.EncodedLegal.copy ..
  | move => exact Laws.EncodedLegal.move ..
  | wcopy => exact Laws.EncodedLegal.wcopy ..
  | enca => exact Laws.EncodedLegal.enca ..
  | encc => exact Laws.EncodedLegal.encc ..
  | init => exact Laws.EncodedLegal.init
  | clear => exact Laws.EncodedLegal.clear
  | setfg => exact Laws.EncodedLegal.setfg ..
  | setbg => exact Laws.EncodedLegal.setbg ..
  | goto => exact Laws.EncodedLegal.goto ..
  | putc => exact Laws.EncodedLegal.putc ..

/-- Settles O1: a word keeps its fields, and the fields of each command decode to it. -/
theorem decodeOfEncodeIsTheCommand : Obligations.DecodeOfEncodeIsTheCommand := by
  intro i
  rw [encode, decode, Fields.ofWord_toWord, decodeFields_encodeFields]

/-- Settles O2: the fields of a legal word are its command's, and they make up the word. -/
theorem encodeOfDecodeIsTheWord : Obligations.EncodeOfDecodeIsTheWord := by
  intro w i h
  rw [encode, encodeFields_of_decodeFields h, Fields.toWord_ofWord]

/-! ### The opcode map -/

/-- The opcode a row of the opcode map is for. -/
def OpcodeRow.opcode (r : OpcodeRow) : BitVec 4 := (Fields.ofWord r.pattern).op

/-- The row of a command whose operands are the low `k.1`, `k.2.1` and `k.2.2` bits of `a`, `b` and `c` (R86, R87). -/
def rowOf (mnemonic : String) (op : BitVec 4) (k : Nat × Nat × Nat) : OpcodeRow where
  mnemonic := mnemonic
  pattern := (Fields.mk op 0#32 0#32 0#32).toWord
  mask := (Fields.mk (BitVec.allOnes 4) (BitVec.allOnes 32 <<< k.1) (BitVec.allOnes 32 <<< k.2.1)
    (BitVec.allOnes 32 <<< k.2.2)).toWord

/-- The match and mask columns are made of the opcodes and of the operand widths of R86. -/
theorem opcodeTable_rows :
    ∀ r ∈ opcodeTable, (operandWidths r.opcode).map (rowOf r.mnemonic r.opcode) = some r := by decide

/-- A row selects the words of its opcode whose reserved operand bits are 0. -/
theorem rowOf_selects (mnemonic : String) {op : BitVec 4} {k : Nat × Nat × Nat} (hk : operandWidths op = some k)
    (w : CommandWord) :
    (rowOf mnemonic op k).selects w = true ↔ (Fields.ofWord w).op = op ∧ (Fields.ofWord w).legal = true := by
  obtain ⟨f, rfl⟩ : ∃ f : Fields, f.toWord = w := ⟨_, Fields.toWord_ofWord w⟩
  obtain ⟨ka, kb, kc⟩ := k
  rw [OpcodeRow.selects, beq_iff_eq, rowOf, Fields.toWord_and, Fields.toWord_inj, Fields.mk.injEq,
    and_shiftLeft_allOnes_eq_zero_iff, and_shiftLeft_allOnes_eq_zero_iff, and_shiftLeft_allOnes_eq_zero_iff,
    BitVec.and_allOnes, Fields.ofWord_toWord]
  refine and_congr_right fun hop => ?_
  rw [Fields.legal, hop, hk]
  simp [and_assoc]

theorem selects_iff_of_mem {r : OpcodeRow} (hr : r ∈ opcodeTable) (w : CommandWord) :
    r.selects w = true ↔ (Fields.ofWord w).op = r.opcode ∧ (Fields.ofWord w).legal = true := by
  obtain ⟨k, hk, hrow⟩ := Option.map_eq_some_iff.1 (opcodeTable_rows r hr)
  rw [← rowOf_selects r.mnemonic hk, hrow]

/-- The rows are disjoint because their opcodes differ (R87). -/
theorem opcodeTable_opcodes_nodup : (opcodeTable.map OpcodeRow.opcode).Nodup := by decide

theorem row_eq_of_opcode_eq {r r' : OpcodeRow} (hr : r ∈ opcodeTable) (hr' : r' ∈ opcodeTable)
    (h : r.opcode = r'.opcode) : r = r' :=
  List.inj_on_of_nodup_map opcodeTable_opcodes_nodup hr hr' h

/-- Every command has a row of its opcode, under its mnemonic. -/
theorem exists_row (i : Instr) : ∃ r ∈ opcodeTable, r.opcode = i.opcode ∧ r.mnemonic = i.mnemonic := by
  cases i <;> simp only [Instr.opcode, Instr.mnemonic] <;> decide

theorem fields_of_decode {w : CommandWord} {i : Instr} (h : decode w = .legal i) :
    (Fields.ofWord w).op = i.opcode ∧ (Fields.ofWord w).legal = true := by
  rw [← encodeFields_of_decodeFields h]
  exact encodedLegal i

theorem exists_row_of_decode {w : CommandWord} {i : Instr} (h : decode w = .legal i) :
    ∃ r ∈ opcodeTable, r.selects w = true ∧ r.mnemonic = i.mnemonic := by
  obtain ⟨hop, hlegal⟩ := fields_of_decode h
  obtain ⟨r, hr, hrop, hrm⟩ := exists_row i
  exact ⟨r, hr, (selects_iff_of_mem hr w).2 ⟨hop.trans hrop.symm, hlegal⟩, hrm⟩

theorem row_eq_of_selects {r r' : OpcodeRow} {w : CommandWord} (hr : r ∈ opcodeTable) (hr' : r' ∈ opcodeTable)
    (h : r.selects w = true) (h' : r'.selects w = true) : r = r' := by
  obtain ⟨hop, -⟩ := (selects_iff_of_mem hr w).1 h
  obtain ⟨hop', -⟩ := (selects_iff_of_mem hr' w).1 h'
  exact row_eq_of_opcode_eq hr hr' (hop.symm.trans hop')

theorem decode_of_selects {r : OpcodeRow} {w : CommandWord} (hr : r ∈ opcodeTable) (h : r.selects w = true) :
    ∃ i, decode w = .legal i ∧ i.mnemonic = r.mnemonic := by
  obtain ⟨-, hlegal⟩ := (selects_iff_of_mem hr w).1 h
  obtain ⟨i, hi⟩ := decodeFields_of_legal hlegal
  obtain ⟨r', hr', h', hm⟩ := exists_row_of_decode hi
  exact ⟨i, hi, by rw [← hm, row_eq_of_selects hr' hr h' h]⟩

/-- Settles O3: a row selects the words of its opcode that are legal, and the opcodes of the rows differ. -/
theorem wordsSelectAtMostOneTableRow : Obligations.WordsSelectAtMostOneTableRow :=
  ⟨fun _ _ => exists_row_of_decode, fun _ _ => decode_of_selects, fun _ _ hr _ hr' => row_eq_of_selects hr hr'⟩

/-! ### Words the spec writes out -/

/-- Settles O5, by evaluation of the fourteen words. -/
theorem specWordsDecode : Obligations.SpecWordsDecode := by
  unfold Obligations.SpecWordsDecode
  decide

/-- Settles O6, by evaluation of the text. -/
theorem assemblerGivesTheWordsOfP1 : Obligations.AssemblerGivesTheWordsOfP1 := by
  unfold Obligations.AssemblerGivesTheWordsOfP1
  decide

end Sys2Proof
end

section
/-! What an accepted word leads to (`30_encoding.md` R88, R90, R91): the fault of an illegal word, the response of
every command, and the invariant along the host's events. -/

namespace Sys2Proof.Machine

/-! ### Illegal words -/

theorem exists_illegal_of_unlisted {w : CommandWord} (h : ∀ r ∈ opcodeTable, r.selects w = false) :
    ∃ why, decode w = .illegal why := by
  cases hd : decode w with
  | illegal why => exact ⟨why, rfl⟩
  | legal i =>
    obtain ⟨r, hr, hsel, -⟩ := exists_row_of_decode hd
    simp [h r hr] at hsel

/-- Settles O4: the decoder reads a word that no row selects as illegal, and an illegal word raises the fault. -/
theorem unlistedWordsRaiseIllegalCommand : Obligations.UnlistedWordsRaiseIllegalCommand := by
  intro s w rest hready hcmds hunlisted
  obtain ⟨why, hwhy⟩ := exists_illegal_of_unlisted hunlisted
  have hstep : step s = .next ((s.accept rest).raise .illegalCommand) := by
    rw [step_of_ready hready hcmds, runWord, hwhy, takeFault]
  exact ⟨_, hstep, raisedFrom_raise _ _, rfl⟩

/-! ### Responses -/

/-- The response value of each command (`30_encoding.md` R91). -/
def response : Instr → CellValue
  | .enca fg bg => 0#8 ++ (bg ++ fg)
  | .encc ch attr => attr ++ ch
  | _ => 0x0000#16

theorem response_eq_zero {i : Instr} (henca : ∀ fg bg, i ≠ .enca fg bg) (hencc : ∀ ch attr, i ≠ .encc ch attr) :
    response i = 0x0000#16 := by
  cases i with
  | enca fg bg => exact absurd rfl (henca fg bg)
  | encc ch attr => exact absurd rfl (hencc ch attr)
  | _ => rfl

/-- ENCA's response is the attribute with zeros above (`41_cell_encoder.md` R133). -/
theorem setWidth_encodeAttribute (fg bg : Color) : (encodeAttribute fg bg).setWidth 16 = 0#8 ++ (bg ++ fg) :=
  BitVec.setWidth_eq_append (by decide)

theorem rsp_of_exec {i : Instr} {s t : State} (h : exec i s = .next t) (hfault : t.fault = false) :
    t.rsp = some ⟨true, response i⟩ := by
  cases i with
  | copy | move | wcopy =>
    obtain ⟨-, -, rfl⟩ := (runMover_next_iff ..).1 h
    rfl
  | enca fg bg =>
    cases h
    rw [State.complete_rsp, setWidth_encodeAttribute, response]
  | encc | init =>
    cases h
    rfl
  | clear | setfg | setbg | goto =>
    rcases (requireInited_next_iff ..).1 h with ⟨-, h'⟩ | ⟨-, rfl⟩
    · cases h'
      rfl
    · cases hfault
  | putc =>
    rcases (execPutc_next_iff ..).1 h with ⟨-, rfl⟩ | ⟨-, -, rfl⟩ | ⟨-, -, rfl⟩
    · cases hfault
    · cases hfault
    · rfl

/-- How a step that takes a word ends: in a fault, or with the response of the command, and ready again. -/
theorem step_responds {s t : State} {w : CommandWord} {rest : List CommandWord} (hready : s.cmdReady = true)
    (hcmds : s.cmds = w :: rest) (h : step s = .next t) :
    (∃ c, t = (s.accept rest).raise c) ∨
      ∃ i, decode w = .legal i ∧ t.cmdReady = true ∧ t.rsp = some ⟨true, response i⟩ := by
  rw [step_of_ready hready hcmds, runWord] at h
  cases hdecode : decode w with
  | illegal why =>
    rw [hdecode] at h
    cases h
    exact .inl ⟨_, rfl⟩
  | legal i =>
    rw [hdecode] at h
    rcases exec_next_cases h with hraise | ⟨u, v, rfl, hu, -⟩
    · exact .inl hraise
    · obtain ⟨hs, -⟩ := (cmdReady_iff s).1 hready
      have hfault : (u.complete v).fault = false := hu.trans hs
      exact .inr ⟨i, rfl, (cmdReady_iff _).2 ⟨hfault, rfl⟩, rsp_of_exec h hfault⟩

/-- Settles O18: FAULT tells the two ways apart in which a step that takes a word ends. -/
theorem everyCommandHasItsResponse : Obligations.EveryCommandHasItsResponse := by
  intro s t w rest hready hcmds hstep
  rcases step_responds hready hcmds hstep with ⟨c, rfl⟩ | ⟨i, hdecode, hready', hrsp⟩
  · exact ⟨fun _ => rfl, nofun, cmdReady_of_fault rfl⟩
  · obtain ⟨hfault, -⟩ := (cmdReady_iff t).1 hready'
    refine ⟨by simp [hfault], fun _ => ⟨i, hdecode, ?_, ?_, ?_⟩, by rw [hready', hfault, Bool.not_false]⟩
    · rintro fg bg rfl
      exact hrsp
    · rintro ch attr rfl
      exact hrsp
    · intro henca hencc
      rw [hrsp, response_eq_zero henca hencc]

/-! ### Events of the outside world -/

theorem State.Inv.resetInput {s : State} (h : s.Inv) (col row attr : Byte) : (s.resetInput col row attr).Inv := by
  obtain ⟨hmem, hcfg, -, -⟩ := h
  exact ⟨hmem, hcfg, rfl, by simp⟩

/-- The accesses an abandoned command has made leave `Mem` in its canonical form. -/
theorem State.Inv.abandon {s : State} (h : s.Inv) (made : List Access) (rest : List CommandWord)
    (col row attr : Byte) : (s.abandon made rest col row attr).Inv := by
  obtain ⟨hmem, hcfg, -, -⟩ := h
  exact ⟨replay_wf made _ hmem, hcfg, rfl, by simp [State.abandon]⟩

theorem State.Inv.resetDuring {s : State} (h : s.Inv) (k : Nat) (col row attr : Byte) :
    (s.resetDuring k col row attr).Inv := by
  unfold State.resetDuring
  split
  · exact h.abandon ..
  · exact h.abandon ..
  · exact h.resetInput ..
  · exact h.resetInput ..

/-- Settles O60: a reset clears FAULT and FCODE together, and what writes `Mem` keeps its canonical form. -/
theorem hostEventsKeepTheInvariant : Obligations.HostEventsKeepTheInvariant := by
  intro s e h
  cases e with
  | offer w => exact h
  | reset col row attr => exact h.resetInput col row attr
  | resetDuring k col row attr => exact h.resetDuring k col row attr
  | externalWrite a b =>
    obtain ⟨hmem, hrest⟩ := h
    exact ⟨Memory.wf_write _ a b hmem, hrest⟩

end Sys2Proof.Machine
end

section
/-! The statements about the bulk mover (`40_bulk_mover.md`): the encoding of its three commands, what each loop
leaves in the destination, when the regions are disjoint, and the snapshot of the source. -/

namespace Sys2Proof.Machine

/-! ### Encodings -/

theorem reservedZero_iff (k : Nat) (v : BitVec 32) : reservedZero k v = true ↔ v >>> k = 0#32 := by
  rw [reservedZero, beq_iff_eq]

/-- An opcode means the command that `decodeFields` guards with the reserved operand bits above `ka`, `kb` and `kc`
(`30_encoding.md` R86, R88). -/
theorem opcodeMeans_of_guard {op : BitVec 4} {ka kb kc : Nat} {command : Fields → Instr}
    (h : ∀ f : Fields, f.op = op → decodeFields f =
      guardReserved op (reservedZero ka f.a && reservedZero kb f.b && reservedZero kc f.c) (command f)) :
    OpcodeMeans op ka kb kc command := by
  intro w hop
  rw [decode, h _ hop, guardReserved]
  simp only [Bool.and_eq_true, reservedZero_iff, and_assoc]
  exact ⟨fun hzero => if_pos hzero, fun hzero => if_neg hzero⟩

/-- A command with three 32-bit operands reserves no operand bit. -/
theorem opcodeMeans_three {op : BitVec 4} {command : Fields → Instr}
    (h : ∀ f : Fields, f.op = op → decodeFields f = .legal (command f)) : OpcodeMeans op 32 32 32 command :=
  opcodeMeans_of_guard fun f hop => by simp [h f hop, guardReserved, Laws.EncodedLegal.reservedZero_all]

theorem opcodeMeans_copy : OpcodeMeans 0x1#4 32 32 32 (fun f => .copy f.a f.b f.c) :=
  opcodeMeans_three fun f hop => by simp [decodeFields, hop]

theorem opcodeMeans_move : OpcodeMeans 0x2#4 32 32 32 (fun f => .move f.a f.b f.c) :=
  opcodeMeans_three fun f hop => by simp [decodeFields, hop]

theorem opcodeMeans_wcopy : OpcodeMeans 0x3#4 32 32 32 (fun f => .wcopy f.a f.b f.c) :=
  opcodeMeans_three fun f hop => by simp [decodeFields, hop]

/-! ### What the three commands share -/

/-- The state after a mover command whose accesses are those of `f` (R110). -/
def State.moved (s : State) (f : MemPort → MemPort) : State := ((s.enter .mover).onPort f).complete 0x0000#16

@[simp] theorem State.moved_byte (s : State) (f : MemPort → MemPort) (a : Addr) :
    (s.moved f).byte a = (f s.port).byte a := rfl

theorem runMover_of_mapped {dst src n : Addr} {s : State} (f : MemPort → MemPort)
    (hsrc : RegionMapped s.cfg src n.toNat) (hdst : RegionMapped s.cfg dst n.toNat) :
    runMover dst src n f s = .next (s.moved f) :=
  (runMover_next_iff ..).2 ⟨(regionMapped_iff_backs ..).1 hsrc, (regionMapped_iff_backs ..).1 hdst, rfl⟩

/-- The frame of a mover command: beside the destination's bytes and the record of its accesses it changes nothing,
and its response is 0 (R110). -/
theorem State.moved_frame {s : State} {f : MemPort → MemPort} {dst : Addr} {n : Nat} {as : List Action}
    (houtside : ∀ x, ¬ InRegion dst n x → (f s.port).byte x = s.port.byte x)
    (hmade : Made s.port (f s.port) as) :
    KeepsOutside dst n s (s.moved f) ∧ (s.moved f).actions = s.actions ++ as ∧
      KeepsRegisters s (s.moved f) ∧ KeepsStatus s (s.moved f) ∧ KeepsHost s (s.moved f) ∧
      CompletedWith (s.moved f) 0x0000#16 :=
  ⟨houtside, Made.actions (t := s.moved f) hmade, ⟨rfl, rfl, rfl⟩, ⟨rfl, rfl, rfl⟩, ⟨rfl, rfl⟩, ⟨rfl, rfl⟩⟩

/-! ### Upward copies -/

theorem CopiedTo.outside {p q : MemPort} {dst src : Addr} {n : Nat} (h : CopiedTo p dst src n q) (x : Addr)
    (hx : ¬ InRegion dst n x) : q.byte x = p.byte x :=
  (h x).trans (if_neg hx)

/-- Byte `i` of the destination is byte `i` of the source, or repeats one of its first `d` bytes (R111). -/
theorem CopiedTo.byte_dst {p q : MemPort} {dst src : Addr} {n : Nat} (h : CopiedTo p dst src n q)
    (hn : n ≤ 2 ^ 32) {i : Nat} (hi : i < n) :
    q.byte (dst + BitVec.ofNat 32 i) = p.byte (src + BitVec.ofNat 32
      (if 0 < (dst - src).toNat ∧ (dst - src).toNat < n then i % (dst - src).toNat else i)) := by
  rw [h, toNat_offset _ _ (by omega), if_pos hi]
  split_ifs with hd
  · rfl
  · have hmod : i % (dst - src).toNat = i := by
      rcases Nat.eq_zero_or_pos (dst - src).toNat with h0 | hpos
      · rw [h0, Nat.mod_zero]
      · exact Nat.mod_eq_of_lt (by omega)
    rw [hmod]

/-- Two upward copies of the same bytes leave the same `Mem`. -/
theorem CopiedTo.byte_eq {p q r : MemPort} {dst src : Addr} {n : Nat} (h : CopiedTo p dst src n q)
    (h' : CopiedTo p dst src n r) (x : Addr) : r.byte x = q.byte x :=
  (h' x).trans (h x).symm

theorem copiedTo_copyUp (p : MemPort) (dst src n : Addr) : CopiedTo p dst src n.toNat (p.copyUp dst src n.toNat) :=
  MemPort.byte_copyUp p dst src n.toNat n.isLt.le

/-- Settles O25: the loop repeats the first `d` bytes of the source, which for `i < n` says more than byte `i`
only when `0 < d < n`. -/
theorem copyRunsItsLoop : Obligations.CopyRunsItsLoop := by
  refine ⟨opcodeMeans_copy, fun dst src n s hsrc hdst => ?_⟩
  have hcopied := copiedTo_copyUp s.port dst src n
  exact ⟨_, runMover_of_mapped _ hsrc hdst, fun i hi => hcopied.byte_dst n.isLt.le hi,
    State.moved_frame hcopied.outside (Made.copyUp ..)⟩

/-! ### MOVE -/

theorem MemPort.move_eq_copyDown {dst src n : Addr} (h : 0 < (dst - src).toNat ∧ (dst - src).toNat < n.toNat)
    (p : MemPort) : p.move dst src n = p.copyDown dst src n.toNat :=
  if_pos ((overlapsAbove_iff ..).2 h)

theorem MemPort.move_eq_copyUp {dst src n : Addr} (h : ¬ (0 < (dst - src).toNat ∧ (dst - src).toNat < n.toNat))
    (p : MemPort) : p.move dst src n = p.copyUp dst src n.toNat :=
  if_neg (mt (overlapsAbove_iff ..).1 h)

/-- The distance from the destination to the source, where it is not 0, is the rest of the address space. -/
theorem toNat_sub_swap {dst src : Addr} (h : 0 < (dst - src).toNat) :
    (src - dst).toNat = 2 ^ 32 - (dst - src).toNat := by
  rw [show src - dst = -(dst - src) by ring, BitVec.toNat_neg, Nat.mod_eq_of_lt (by omega)]

/-- Byte `i` of MOVE's destination, for every operand (R112). -/
theorem MemPort.byte_move_dst (p : MemPort) (dst src n : Addr) {i : Nat} (hi : i < n.toNat) :
    (p.move dst src n).byte (dst + BitVec.ofNat 32 i) = p.byte (src + BitVec.ofNat 32
      (if 0 < (dst - src).toNat ∧ (dst - src).toNat < n.toNat
        then n.toNat - 1 - (n.toNat - 1 - i) % (2 ^ 32 - (dst - src).toNat) else i)) := by
  have hlt := n.isLt
  by_cases hd : 0 < (dst - src).toNat ∧ (dst - src).toNat < n.toNat
  · rw [MemPort.move_eq_copyDown hd, MemPort.byte_copyDown _ _ _ _ hlt.le, toNat_offset _ _ (by omega), if_pos hi,
      if_pos hd, toNat_sub_swap hd.1]
  · rw [MemPort.move_eq_copyUp hd, (copiedTo_copyUp p dst src n).byte_dst hlt.le hi, if_neg hd, if_neg hd]

/-- Settles O26: the direction test picks one of two loops, each known for every operand. -/
theorem moveRunsItsLoop : Obligations.MoveRunsItsLoop :=
  ⟨opcodeMeans_move, fun dst src n s hsrc hdst =>
    ⟨_, runMover_of_mapped _ hsrc hdst, fun _ hi => s.port.byte_move_dst dst src n hi,
      State.moved_frame (fun x hx => s.port.byte_move_outside dst src n x (Nat.not_lt.1 hx)) (Made.move ..)⟩⟩

/-- Settles O29: for `n ≤ 2^31` the byte at every address after MOVE is the snapshot's. -/
theorem moveIsOverlapSafe : Obligations.MoveIsOverlapSafe := by
  intro dst src n s hn hsrc hdst
  refine ⟨_, runMover_of_mapped _ hsrc hdst, fun i hi => ?_, fun x hx => ?_⟩
  · rw [State.moved_byte, MemPort.byte_move _ _ _ _ _ hn, toNat_offset _ _ (by omega), if_pos hi, BitVec.add_comm dst,
      BitVec.add_sub_cancel, State.byte]
  · exact (s.port.byte_move dst src n x hn).trans (if_neg hx)

/-! ### WCOPY -/

/-- Settles O27: each chunk is read whole before it is written, so a byte of it is an earlier chunk's or the source's
old one. -/
theorem wcopyRunsItsLoops : Obligations.WcopyRunsItsLoops := by
  refine ⟨opcodeMeans_wcopy, fun dst src n s hsrc hdst => ?_⟩
  obtain ⟨hbytes, houtside⟩ := s.port.replaced_copyWords dst src n.toNat n.isLt.le
  exact ⟨_, runMover_of_mapped _ hsrc hdst, hbytes,
    State.moved_frame (fun x hx => houtside x (Nat.not_lt.1 hx)) (Made.copyWords ..)⟩

/-! ### Disjoint regions -/

theorem inRegion_base {base : Addr} {n : Nat} (hn : 0 < n) : InRegion base n base := by
  simpa [InRegion] using hn

/-- Of two regions that meet, one holds the other's first byte; so they are disjoint when each starts at least `n`
bytes above the other (R114). -/
theorem regions_disjoint_iff (dst src : Addr) (n : Nat) :
    (∀ a : Addr, ¬ (InRegion src n a ∧ InRegion dst n a)) ↔
      n = 0 ∨ (n ≤ (dst - src).toNat ∧ n ≤ 2 ^ 32 - (dst - src).toNat) := by
  constructor
  · intro h
    rcases Nat.eq_zero_or_pos n with h0 | hpos
    · exact .inl h0
    · have hdst : ¬ InRegion src n dst := fun hm => h dst ⟨hm, inRegion_base hpos⟩
      have hsrc : ¬ InRegion dst n src := fun hm => h src ⟨inRegion_base hpos, hm⟩
      rw [InRegion, Nat.not_lt] at hdst hsrc
      rw [toNat_sub_swap (hpos.trans_le hdst)] at hsrc
      exact .inr ⟨hdst, hsrc⟩
  · rintro h a ⟨hsrc, hdst⟩
    have hsplit : a - dst = (a - src) - (dst - src) := by ring
    rw [InRegion] at hsrc
    rw [InRegion, hsplit, BitVec.toNat_sub] at hdst
    omega

/-- Settles O28: unless `0 < d < n`, MOVE runs COPY's loop, and WCOPY's loops leave the same bytes as COPY's. -/
theorem moversAgreeWithoutOverlap : Obligations.MoversAgreeWithoutOverlap := by
  refine fun dst src n => ⟨regions_disjoint_iff dst src n.toNat, fun s hsrc hdst hd => ?_⟩
  have hcopy := copiedTo_copyUp s.port dst src n
  have hwords := s.port.byte_copyWords dst src n.toNat n.isLt.le (by omega)
  have hmove := MemPort.move_eq_copyUp hd s.port
  refine ⟨_, _, _, runMover_of_mapped _ hsrc hdst, runMover_of_mapped _ hsrc hdst, runMover_of_mapped _ hsrc hdst,
    fun i hi => ?_, hcopy.outside, fun a => congrArg (MemPort.byte · a) hmove, hcopy.byte_eq hwords, ?_⟩
  · exact (hcopy.byte_dst n.isLt.le hi).trans (by rw [if_neg hd]; rfl)
  · have hmade := Made.move s.port dst src n
    rw [if_neg hd] at hmade
    exact hmade.actions

end Sys2Proof.Machine
end

section
/-! The statements about the cell encoder (`41_cell_encoder.md`): the attribute and the cell as bijections with their
two fields, and ENCA and ENCC, which return them. -/

namespace Sys2Proof.Machine

/-! ### The attribute and the cell -/

/-- The number a concatenation is: the upper word's, shifted above the lower word's. -/
theorem toNat_append_eq_mul_add {m n : Nat} (x : BitVec m) (y : BitVec n) :
    (x ++ y).toNat = x.toNat * 2 ^ n + y.toNat := by
  rw [BitVec.toNat_append, ← Nat.shiftLeft_add_eq_or_of_lt y.isLt, Nat.shiftLeft_eq]

theorem toNat_encodeAttribute (fg bg : Color) : (encodeAttribute fg bg).toNat = bg.toNat * 16 + fg.toNat :=
  toNat_append_eq_mul_add bg fg

theorem toNat_encodeCell (ch attr : Byte) : (encodeCell ch attr).toNat = attr.toNat * 256 + ch.toNat :=
  toNat_append_eq_mul_add attr ch

@[simp] theorem attrFg_encodeAttribute (fg bg : Color) : attrFg (encodeAttribute fg bg) = fg :=
  BitVec.extractLsb'_append_eq_right

@[simp] theorem attrBg_encodeAttribute (fg bg : Color) : attrBg (encodeAttribute fg bg) = bg :=
  BitVec.extractLsb'_append_eq_left

/-- An attribute is its two nibbles (R130). -/
@[simp] theorem encodeAttribute_attrFg_attrBg (a : Byte) : encodeAttribute (attrFg a) (attrBg a) = a :=
  (BitVec.extractLsb'_append_extractLsb'_eq_extractLsb' rfl).trans BitVec.extractLsb'_eq_self

/-- Settles O31: the attribute is the concatenation of its two nibbles. -/
theorem encodeAttributeIsABijection : Obligations.EncodeAttributeIsABijection :=
  ⟨fun fg bg => ⟨toNat_encodeAttribute fg bg, attrFg_encodeAttribute fg bg, attrBg_encodeAttribute fg bg⟩,
    encodeAttribute_attrFg_attrBg⟩

/-- Settles O32: the cell is the concatenation of its two bytes. -/
theorem encodeCellRoundTrips : Obligations.EncodeCellRoundTrips :=
  ⟨fun ch attr => ⟨toNat_encodeCell ch attr, encodeCell_low ch attr, encodeCell_high ch attr⟩, encodeCell_bytes⟩

/-! ### ENCA and ENCC -/

theorem opcodeMeans_enca : OpcodeMeans 0x4#4 4 4 0 (fun f => .enca (f.a.setWidth 4) (f.b.setWidth 4)) :=
  opcodeMeans_of_guard fun f hop => by simp [decodeFields, hop]

theorem opcodeMeans_encc : OpcodeMeans 0x5#4 8 8 0 (fun f => .encc (f.a.setWidth 8) (f.b.setWidth 8)) :=
  opcodeMeans_of_guard fun f hop => by simp [decodeFields, hop]

/-- The state after an encoder command with this response (R133, R134). -/
def State.encoded (s : State) (value : CellValue) : State := (s.enter .encode).complete value

theorem exec_enca (fg bg : Color) (s : State) :
    exec (.enca fg bg) s = .next (s.encoded ((encodeAttribute fg bg).setWidth 16)) := rfl

theorem exec_encc (ch attr : Byte) (s : State) : exec (.encc ch attr) s = .next (s.encoded (encodeCell ch attr)) := rfl

/-- The frame of an encoder command: it gives its response and changes nothing else (R133, R134). -/
theorem State.encoded_frame (s : State) {value : CellValue} {n : Nat} (hvalue : value.toNat = n) :
    CompletedWith (s.encoded value) (BitVec.ofNat 16 n) ∧
      KeepsRegisters s (s.encoded value) ∧ KeepsStatus s (s.encoded value) ∧ KeepsHost s (s.encoded value) ∧
      KeepsMemory s (s.encoded value) ∧ NoAccess s (s.encoded value) := by
  have hresponse : BitVec.ofNat 16 n = value := by rw [← hvalue, BitVec.ofNat_toNat, BitVec.setWidth_eq]
  rw [hresponse]
  exact ⟨⟨rfl, rfl⟩, ⟨rfl, rfl, rfl⟩, ⟨rfl, rfl, rfl⟩, ⟨rfl, rfl⟩, fun _ => rfl, rfl⟩

/-- ENCA's zero-extended response is the number of the attribute (R133). -/
theorem toNat_setWidth_encodeAttribute (fg bg : Color) :
    ((encodeAttribute fg bg).setWidth 16).toNat = bg.toNat * 16 + fg.toNat := by
  rw [BitVec.toNat_setWidth_of_le (by decide), toNat_encodeAttribute]

/-- Settles O33: ENCA runs no check, and its response is the number of the attribute. -/
theorem encaReturnsTheAttribute : Obligations.EncaReturnsTheAttribute :=
  ⟨opcodeMeans_enca, fun fg bg s =>
    ⟨_, exec_enca fg bg s, s.encoded_frame (toNat_setWidth_encodeAttribute fg bg)⟩⟩

/-- Settles O34: ENCC runs no check, and its response is the number of the cell. -/
theorem enccReturnsTheCell : Obligations.EnccReturnsTheCell :=
  ⟨opcodeMeans_encc, fun ch attr s => ⟨_, exec_encc ch attr s, s.encoded_frame (toNat_encodeCell ch attr)⟩⟩

end Sys2Proof.Machine
end

section
/-! The statements about the address generator (`42_address_generator.md`): the row-major number of a cell as a
bijection, and the address of a cell as an integer. -/

namespace Sys2Proof.Machine

/-! ### The cell index -/

theorem cellIndex_eq (col row : Nat) : cellIndex col row = row * 80 + col := rfl

theorem cellIndex_lt {col row : Nat} (hcol : col < 80) (hrow : row < 25) : cellIndex col row < 2000 := by
  rw [cellIndex_eq]
  omega

theorem cellIndex_mod {col : Nat} (row : Nat) (hcol : col < 80) : cellIndex col row % 80 = col :=
  Nat.mul_add_mod_of_lt hcol

theorem cellIndex_div {col : Nat} (row : Nat) (hcol : col < 80) : cellIndex col row / 80 = row := by
  rw [cellIndex_eq]
  omega

theorem cellIndex_mod_div (i : Nat) : cellIndex (i % 80) (i / 80) = i := Nat.div_add_mod' i 80

/-- Settles O35: quotient and remainder by the width recover row and column, and make up the index again. -/
theorem cellIndexIsABijection : Obligations.CellIndexIsABijection :=
  ⟨fun col row hcol hrow =>
      ⟨cellIndex_eq col row, cellIndex_lt hcol hrow, cellIndex_mod row hcol, cellIndex_div row hcol⟩,
    fun i hi => ⟨Nat.mod_lt i (by decide), Nat.div_lt_of_lt_mul hi, cellIndex_mod_div i⟩⟩

/-! ### The cell address -/

/-- The addition of GRID_BASE does not carry out of 32 bits (R141, R145). -/
theorem toNat_cellAddrOf {g : Config} {i : Nat} (hgrid : g.gridBase.toNat + 4000 ≤ 2 ^ 32) (hi : i < 2000) :
    (g.cellAddrOf i).toNat = g.gridBase.toNat + 2 * i := by
  have hoffset : (BitVec.ofNat 32 (2 * i)).toNat = 2 * i := Nat.mod_eq_of_lt (by omega)
  have hcarry : g.gridBase.toNat + (BitVec.ofNat 32 (2 * i)).toNat < 2 ^ 32 := by omega
  calc (g.cellAddrOf i).toNat
      = g.gridBase.toNat + (BitVec.ofNat 32 (2 * i)).toNat := BitVec.toNat_add_of_lt hcarry
    _ = g.gridBase.toNat + 2 * i := by rw [hoffset]

/-- Settles O36: R6 leaves room for the 4000 bytes of the grid, and the index of an in-range position is below 2000. -/
theorem cellAddressesNeitherCarryNorLeaveTheGrid : Obligations.CellAddressesNeitherCarryNorLeaveTheGrid := by
  intro g col row hvalid hcol hrow
  obtain ⟨heven, hgrid, -⟩ := (valid_iff g).1 hvalid
  have hindex := cellIndex_lt hcol hrow
  have haddr : (g.cellAddr col row).toNat = g.gridBase.toNat + 2 * cellIndex col.toNat row.toNat :=
    toNat_cellAddrOf hgrid hindex
  rw [cellIndex_eq] at haddr hindex
  omega

/-- Settles O37, by evaluation of the five addresses and of R6's constraints on the default parameters. -/
theorem defaultCellAddresses : Obligations.DefaultCellAddresses := by
  unfold Obligations.DefaultCellAddresses
  decide

end Sys2Proof.Machine
end

section
/-! The statements about the console state commands (`43_console_state.md`): the encodings of INIT, CLEAR, SETFG,
SETBG and GOTO, what each leaves of the state, and sequences of commands issued after INIT. -/

namespace Sys2Proof.Machine

/-! ### Encodings -/

theorem opcodeMeans_init : OpcodeMeans 0x6#4 0 0 0 (fun _ => .init) :=
  opcodeMeans_of_guard fun f hop => by simp [decodeFields, hop]

theorem opcodeMeans_clear : OpcodeMeans 0x7#4 0 0 0 (fun _ => .clear) :=
  opcodeMeans_of_guard fun f hop => by simp [decodeFields, hop]

theorem opcodeMeans_setfg : OpcodeMeans 0x8#4 4 0 0 (fun f => .setfg (f.a.setWidth 4)) :=
  opcodeMeans_of_guard fun f hop => by simp [decodeFields, hop]

theorem opcodeMeans_setbg : OpcodeMeans 0x9#4 4 0 0 (fun f => .setbg (f.a.setWidth 4)) :=
  opcodeMeans_of_guard fun f hop => by simp [decodeFields, hop]

theorem opcodeMeans_goto : OpcodeMeans 0xA#4 8 8 0 (fun f => .goto (f.a.setWidth 8) (f.b.setWidth 8)) :=
  opcodeMeans_of_guard fun f hop => by simp [decodeFields, hop]

/-! ### The checks -/

/-- No command but PUTC has its cursor checked. -/
theorem CursorChecked.of_ne_putc {i : Instr} {s : State} (h : ∀ ch, i ≠ .putc ch) : CursorChecked i s :=
  fun ch hch => absurd hch (h ch)

/-- Once INITED is 1 a command of R203 that needs it runs, PUTC where the cursor is in range (R150). -/
theorem exec_of_inited {i : Instr} {s : State} (hs : s.inited = true) (hi : needsInited i = true)
    (hr : CursorChecked i s) : exec i s = .next ((effect i s).complete 0x0000#16) := by
  cases i with
  | clear | setfg | setbg | goto => exact requireInited_of_inited hs _
  | putc ch => exact execPutc_runs ch hs (hr ch rfl)
  | _ => cases hi

/-- The fault of a command that runs before INIT (R150, `60_exceptions.md` R203). -/
theorem exec_raises_of_not_inited {i : Instr} {s : State} (hs : s.inited = false) (hi : needsInited i = true) :
    ∃ t, exec i s = .next t ∧ RaisedFrom .notInitialised s t :=
  ⟨_, exec_of_not_inited hs hi, raisedFrom_raise _ _⟩

/-! ### INIT -/

theorem exec_init (s : State) : exec .init s = .next ((effect .init s).complete 0x0000#16) := rfl

/-- STATUS of an idle block that is initialised and has no fault (`10_state.md` R29). -/
theorem State.status_of_no_fault {s : State} (hinited : s.inited = true) (hfault : s.fault = false)
    (hfcode : s.fcode = 0#2) (hphase : s.phase = .idle) : s.status = 0x02#8 := by
  rw [State.status, State.busy, hinited, hfault, hfcode, hphase]
  rfl

/-- INIT clears the grid with the attribute it has just loaded (R151). -/
theorem effect_init_cell (s : State) {i : Nat} (hi : i < 2000) :
    (effect .init s).cell i = encodeCell s.cfg.space 0x07#8 :=
  ((s.setCursor 0#8 0#8).setAttr DEFAULT_ATTR).clearGrid_cell i hi

theorem effect_init_made (s : State) : Made s.port (effect .init s).port (fillActions s.cfg 0 2000) :=
  ((s.setCursor 0#8 0#8).setAttr DEFAULT_ATTR).clearGrid_made

/-- Settles O38: INIT runs no check, and its effect is three register writes, the clear procedure and INITED. -/
theorem initBringsTheConsoleToItsStart : Obligations.InitBringsTheConsoleToItsStart :=
  ⟨opcodeMeans_init, fun s =>
    ⟨_, exec_init s, rfl, rfl, rfl, rfl, fun _ hi => effect_init_cell s hi,
      effect_keepsOutsideGrid (i := .init) (.of_ne_putc nofun) rfl,
      Made.actions (t := (effect .init s).complete 0x0000#16) (effect_init_made s), rfl, rfl,
      fun hfault hfcode => State.status_of_no_fault rfl hfault hfcode rfl, ⟨rfl, rfl⟩, ⟨rfl, rfl⟩⟩⟩

/-! ### CLEAR -/

/-- Settles O39: past its check CLEAR is the clear procedure, which does not use the cursor. -/
theorem clearBlanksTheGrid : Obligations.ClearBlanksTheGrid :=
  ⟨opcodeMeans_clear, fun s =>
    ⟨fun hs => ⟨_, exec_of_inited hs rfl (.of_ne_putc nofun), s.clearGrid_cell, s.clearGrid_keepsOutsideGrid,
        Made.actions (t := (effect .clear s).complete 0x0000#16) s.clearGrid_made,
        ⟨rfl, rfl, rfl⟩, ⟨rfl, rfl, rfl⟩, ⟨rfl, rfl⟩, ⟨rfl, rfl⟩⟩,
      fun hs => exec_raises_of_not_inited hs rfl⟩⟩

/-! ### SETFG, SETBG and GOTO -/

/-- The frame of a command that only writes console registers (R154 to R156). -/
theorem State.setRegisters_frame (s : State) (col row attr : Byte) :
    KeepsStatus s ((s.setRegisters col row attr).complete 0x0000#16) ∧
      KeepsHost s ((s.setRegisters col row attr).complete 0x0000#16) ∧
      KeepsMemory s ((s.setRegisters col row attr).complete 0x0000#16) ∧
      NoAccess s ((s.setRegisters col row attr).complete 0x0000#16) ∧
      CompletedWith ((s.setRegisters col row attr).complete 0x0000#16) 0x0000#16 :=
  ⟨⟨rfl, rfl, rfl⟩, ⟨rfl, rfl⟩, fun _ => rfl, rfl, ⟨rfl, rfl⟩⟩

/-- Settles O41: the attribute SETFG writes has the colour below the background field it read. -/
theorem setfgWritesTheForeground : Obligations.SetfgWritesTheForeground :=
  ⟨opcodeMeans_setfg, fun c s =>
    ⟨fun hs => ⟨_, exec_of_inited hs rfl (.of_ne_putc nofun), attrFg_encodeAttribute c (attrBg s.attr),
        attrBg_encodeAttribute c (attrBg s.attr), rfl, rfl, s.setRegisters_frame ..⟩,
      fun hs => exec_raises_of_not_inited hs rfl⟩⟩

/-- Settles O43: past its check GOTO writes the cursor, without a look at its range. -/
theorem gotoStoresItsOperands : Obligations.GotoStoresItsOperands :=
  ⟨opcodeMeans_goto, fun xv yv s =>
    ⟨fun hs => ⟨_, exec_of_inited hs rfl (.of_ne_putc nofun), rfl, rfl, rfl, s.setRegisters_frame xv yv s.attr⟩,
      fun hs => exec_raises_of_not_inited hs rfl⟩⟩

/-! ### Sequences of commands after INIT -/

/-- The block after it has taken a command that completes with response 0, with `commands` still on offer. -/
def State.after (s : State) (i : Instr) (commands : List Instr) : State :=
  (effect i (s.accept (commands.map encode))).complete 0x0000#16

section Issue

variable {s : State} {i : Instr} (commands : List Instr) (hready : s.cmdReady = true) (hinited : s.inited = true)
  (hi : needsInited i = true) (hr : CursorChecked i s)
include hinited hi hr

theorem State.exec_accept_of_inited : exec i (s.accept (commands.map encode)) = .next (s.after i commands) :=
  exec_of_inited (s := s.accept (commands.map encode)) hinited hi hr

theorem State.after_inited : (s.after i commands).inited = true := by
  have h := onlyInitSetsInited _ _ _ (State.exec_accept_of_inited commands hinited hi hr)
  rw [h, State.accept_inited, hinited, Bool.true_or]

include hready

/-- A command that completes leaves the block ready for the next one. -/
theorem State.after_ready : (s.after i commands).cmdReady = true := by
  obtain ⟨hfault, -⟩ := (cmdReady_iff s).1 hready
  have hexec := State.exec_accept_of_inited commands hinited hi hr
  rcases exec_next_cases hexec with ⟨c, hraise⟩ | ⟨u, v, hu, hufault, -⟩
  · cases congrArg State.rsp hraise
  · rw [cmdReady_iff, hu]
    exact ⟨hufault.trans hfault, rfl⟩

theorem State.issue_cons_of_inited : s.issue (i :: commands) = (s.after i commands).issue commands :=
  State.issue_cons commands hready (decodeOfEncodeIsTheCommand i) (State.exec_accept_of_inited commands hinited hi hr)

theorem State.issue_one : s.issue [i] = .next (s.after i []) := by
  have hcmds : (s.after i []).cmds = [] := (exec_keepsHost (State.exec_accept_of_inited [] hinited hi hr)).1
  rw [State.issue_cons_of_inited [] hready hinited hi hr, State.issue_nil, ← hcmds, State.offering_self]

theorem State.issue_two {j : Instr} (hj : needsInited j = true) (hjr : CursorChecked j (s.after i [j])) :
    s.issue [i, j] = .next ((s.after i [j]).after j []) :=
  (State.issue_cons_of_inited [j] hready hinited hi hr).trans
    (State.issue_one (State.after_ready [j] hready hinited hi hr) (State.after_inited [j] hinited hi hr) hj hjr)

end Issue

/-! ### CLEAR twice -/

/-- The clear procedure writes again what it has written, where the attribute and the parameters are the same (R152). -/
theorem State.clearGrid_byte_of_cleared {s t : State} (hbytes : ∀ a, t.byte a = s.clearGrid.byte a)
    (hcfg : t.cfg = s.cfg) (hattr : t.attr = s.attr) (a : Addr) : t.clearGrid.byte a = s.clearGrid.byte a := by
  have hblank : t.blank = s.blank := by rw [State.blank, hcfg, hattr, State.blank]
  rw [State.clearGrid_byte, hbytes, hcfg, hblank, State.clearGrid_byte]
  split_ifs <;> rfl

/-- What is on offer makes no difference to the bytes that CLEAR leaves. -/
theorem State.after_clear_byte (s : State) (commands : List Instr) (a : Addr) :
    (s.after .clear commands).byte a = s.clearGrid.byte a := by
  have haccept : (s.after .clear commands).byte a = (s.accept (commands.map encode)).clearGrid.byte a := rfl
  rw [haccept, State.clearGrid_byte, State.clearGrid_byte, State.accept_byte]
  rfl

/-- Settles O40: the second CLEAR starts from the bytes, the attribute and the parameters that the one CLEAR leaves. -/
theorem clearTwiceIsClearOnce : Obligations.ClearTwiceIsClearOnce := by
  intro s hready hinited
  obtain ⟨hfault, -⟩ := (cmdReady_iff s).1 hready
  have hcursor (t : State) : CursorChecked .clear t := .of_ne_putc nofun
  have honce := State.issue_one hready hinited rfl (hcursor _)
  have htwice := State.issue_two hready hinited rfl (hcursor _) rfl (hcursor _)
  refine ⟨_, _, honce, htwice, ?_, ?_, fun a => ?_, ?_⟩
  · simp [State.after, effect, hfault]
  · simp [State.after, effect, hfault]
  · rw [State.after_clear_byte, State.after_clear_byte]
    refine State.clearGrid_byte_of_cleared (s.after_clear_byte [.clear]) ?_ ?_ a
    · simp [State.after, effect]
    · simp [State.after, effect]
  · simp [KeepsRegisters, State.after, effect]

/-! ### SETFG and SETBG in either order -/

/-- Settles O42: the attribute SETBG writes has the colour above the foreground field it read, so that after SETFG and
SETBG, in either order, it is made of the two colours. -/
theorem setbgWritesTheBackground : Obligations.SetbgWritesTheBackground := by
  refine ⟨opcodeMeans_setbg, fun c s => ⟨fun hs => ?_, fun hs => exec_raises_of_not_inited hs rfl⟩,
    fun fg bg s hready hinited => ?_⟩
  · exact ⟨_, exec_of_inited hs rfl (.of_ne_putc nofun), attrBg_encodeAttribute (attrFg s.attr) c,
      attrFg_encodeAttribute (attrFg s.attr) c, rfl, rfl, s.setRegisters_frame ..⟩
  · have hcursorFg (t : State) : CursorChecked (.setfg fg) t := .of_ne_putc nofun
    have hcursorBg (t : State) : CursorChecked (.setbg bg) t := .of_ne_putc nofun
    have hfgFirst := State.issue_two hready hinited rfl (hcursorFg _) rfl (hcursorBg _)
    have hbgFirst := State.issue_two hready hinited rfl (hcursorBg _) rfl (hcursorFg _)
    refine ⟨_, _, hfgFirst, hbgFirst, ?_, ?_, ?_, ?_⟩
    · show _ = encodeAttribute fg bg
      simp [State.after, effect]
    · show _ = encodeAttribute fg bg
      simp [State.after, effect]
    · simp [KeepsStatus, State.after, effect]
    · simp [KeepsStatus, State.after, effect]

end Sys2Proof.Machine
end

section
/-! The statements about PUTC (`44_console_driver.md`): its encoding and checks, what it leaves for a printed character
and for each control code, and sequences of printed characters. -/

namespace Sys2Proof.Machine

/-! ### Encoding and checks -/

theorem opcodeMeans_putc : OpcodeMeans 0xB#4 8 0 0 (fun f => .putc (f.a.setWidth 8)) :=
  opcodeMeans_of_guard fun f hop => by simp [decodeFields, hop]

/-- The third check of PUTC comes after INITED's and before any effect (R170). -/
theorem exec_putc_of_not_inRange {s : State} (ch : Byte) (hinited : s.inited = true)
    (hr : ¬ (s.col.toNat < 80 ∧ s.row.toNat < 25)) : exec (.putc ch) s = .next (s.raise .cursorOutOfRange) :=
  (requireInited_of_inited hinited _).trans (requireCursor_of_not_inRange hr _)

/-- Settles O44: both checks raise from the state PUTC starts in, whichever the character. -/
theorem putcChecksBeforeAnyEffect : Obligations.PutcChecksBeforeAnyEffect :=
  ⟨opcodeMeans_putc, fun ch _ =>
    ⟨fun hinited => exec_raises_of_not_inited hinited rfl,
      fun hinited hr => ⟨_, exec_putc_of_not_inRange ch hinited hr, raisedFrom_raise _ _⟩⟩⟩

/-! ### What every PUTC keeps -/

theorem KeepsStatus.trans {s t u : State} (h : KeepsStatus s t) (h' : KeepsStatus t u) : KeepsStatus s u := by
  obtain ⟨hinited, hfault, hfcode⟩ := h
  obtain ⟨hinited', hfault', hfcode'⟩ := h'
  exact ⟨hinited'.trans hinited, hfault'.trans hfault, hfcode'.trans hfcode⟩

theorem KeepsHost.trans {s t u : State} (h : KeepsHost s t) (h' : KeepsHost t u) : KeepsHost s u := by
  obtain ⟨hcmds, hcfg⟩ := h
  obtain ⟨hcmds', hcfg'⟩ := h'
  exact ⟨hcmds'.trans hcmds, hcfg'.trans hcfg⟩

/-- None of PUTC's three steps writes the attribute, a status bit, the host's side or a byte outside the grid. -/
theorem putcFrame_effect {s : State} (ch : Byte) (hr : s.col.toNat < 80 ∧ s.row.toNat < 25) :
    PutcFrame s ((effect (.putc ch) s).complete 0x0000#16) := by
  obtain ⟨-, -, -, hstatus, hhost, -⟩ := s.placeChar_keeps ch
  have adv := State.advance_placeChar_spec ch hr
  obtain ⟨-, hstatus', hhost', -⟩ := (s.placeChar ch).advance.adjust_keeps ch
  exact ⟨(effect_putc_keeps ch hr).1, (hstatus.trans adv.status).trans hstatus', (hhost.trans adv.host).trans hhost',
    effect_putc_keepsOutsideGrid ch hr, rfl, rfl⟩

/-- An advanced grid is a matter of the cells before and after, of whether the cursor was at the last cell, and of the
blank cell. -/
theorem GridAdvanced.congr {s s' t t' : State} {old old' : Nat → CellValue} (h : GridAdvanced s old t)
    (hlast : AtLastCell s' ↔ AtLastCell s) (hblank : s'.blank = s.blank) (hold : ∀ i < 2000, old' i = old i)
    (hcell : ∀ i < 2000, t'.cell i = t.cell i) : GridAdvanced s' old' t' := by
  obtain ⟨hscroll, hstay⟩ := h
  refine ⟨fun hs => ?_, fun hs i hi => ?_⟩
  · obtain ⟨hup, hrow⟩ := hscroll (hlast.1 hs)
    refine ⟨fun i hi => ?_, fun i hi => ?_⟩
    · rw [hcell i (by omega), hup i hi, hold _ (by omega)]
    · rw [hcell _ (by omega), hrow i hi, hblank]
  · rw [hcell i hi, hstay (mt hlast.2 hs) i hi, hold i hi]

/-! ### Printed characters -/

/-- Cell `i` after the placement of a printed character (R171). -/
def State.placedCell (s : State) (ch : Byte) (i : Nat) : CellValue :=
  if i = s.row.toNat * 80 + s.col.toNat then encodeCell ch s.attr else s.cell i

theorem blank_placeChar (s : State) (ch : Byte) : (s.placeChar ch).blank = s.blank := by
  obtain ⟨-, -, hattr, -, ⟨-, hcfg⟩, -⟩ := s.placeChar_keeps ch
  rw [State.blank, hattr, hcfg, State.blank]

/-- A character that is no control code has no adjustment (R178). -/
theorem State.adjust_of_not_control {s : State} {ch : Byte} (h : s.cfg.isControl ch = false) :
    s.adjust ch = s.enter .adjust := by
  have hcodes := mt (isControl_iff s.cfg ch).2 (by simp [h])
  simp only [not_or] at hcodes
  obtain ⟨-, hbs, hff, hlf, hcr⟩ := hcodes
  exact s.adjust_none ch hbs hlf hff hcr

theorem effect_putc_of_not_control {s : State} {ch : Byte} (hr : s.col.toNat < 80 ∧ s.row.toNat < 25)
    (h : s.cfg.isControl ch = false) : effect (.putc ch) s = (s.placeChar ch).advance.enter .adjust :=
  State.adjust_of_not_control (by rw [advance_placeChar_cfg ch hr, h])

/-- What PUTC of a printed character leaves of the cursor and the grid: the cell is placed, and then all advances
(R171 to R173). -/
theorem effect_putc_printed {s : State} {ch : Byte} (hr : s.col.toNat < 80 ∧ s.row.toNat < 25)
    (h : s.cfg.isControl ch = false) :
    (effect (.putc ch) s).col.toNat = advCol s ∧ (effect (.putc ch) s).row.toNat = advRow s ∧
      GridAdvanced s (s.placedCell ch) (effect (.putc ch) s) := by
  have adv := State.advance_placeChar_spec ch hr
  rw [effect_putc_of_not_control hr h]
  exact ⟨adv.col.trans (advCol_placeChar s ch), adv.row.trans (advRow_placeChar s ch),
    adv.grid.congr (atLastCell_placeChar s ch).symm (blank_placeChar s ch).symm
      (fun i hi => (s.place_cell ch h hr.1 hr.2 i hi).symm) fun i _ => State.enter_cell _ _ i⟩

/-- Settles O45: PUTC of a printed character is the placement and the generic advance. -/
theorem putcPlacesACharacterAndAdvances : Obligations.PutcPlacesACharacterAndAdvances := by
  intro ch s hinited hcol hrow hch
  obtain ⟨hcol', hrow', hgrid⟩ := effect_putc_printed ⟨hcol, hrow⟩ hch
  exact ⟨_, execPutc_runs ch hinited ⟨hcol, hrow⟩, hcol', hrow', hgrid, putcFrame_effect ch ⟨hcol, hrow⟩⟩

/-! ### Control codes -/

/-- A control code skips the placement, so that its adjustment follows the generic advance from where it starts. -/
theorem effect_putc_of_control {s : State} {ch : Byte} (h : s.cfg.isControl ch = true) :
    effect (.putc ch) s = s.advance.adjust ch := by
  rw [effect, s.placeChar_of_control ch h]

/-- PUTC of a control code `code` whose adjustment writes no more than the cursor (R174, R175, R177, R178) leaves the
grid of the generic advance. -/
theorem exec_putc_of_cursor_adjustment (code : Config → Byte) {s : State} {col row : Byte} {c r : Nat}
    (hinited : s.inited = true) (hr : s.col.toNat < 80 ∧ s.row.toNat < 25)
    (hch : s.cfg.isControl (code s.cfg) = true)
    (hadjust : s.advance.adjust (code s.advance.cfg) = (s.advance.enter .adjust).setCursor col row)
    (hcol : col.toNat = c) (hrow : row.toNat = r) :
    ∃ t, exec (.putc (code s.cfg)) s = .next t ∧
      t.col.toNat = c ∧ t.row.toNat = r ∧ GridAdvanced s s.cell t ∧ PutcFrame s t := by
  have adv := s.advance_spec hr.1 hr.2
  rw [adv.host.2] at hadjust
  have heffect := (effect_putc_of_control hch).trans hadjust
  refine ⟨_, execPutc_runs _ hinited hr, ?_, ?_, ?_, putcFrame_effect _ hr⟩
  · exact (congrArg (·.col.toNat) heffect).trans hcol
  · exact (congrArg (·.row.toNat) heffect).trans hrow
  · exact adv.grid.congr .rfl rfl (fun _ _ => rfl) fun i _ => congrArg (·.cell i) heffect

/-- The generic advance keeps the parameters, and with them R6's constraints. -/
theorem advance_valid {s : State} (hr : s.col.toNat < 80 ∧ s.row.toNat < 25) (hvalid : s.cfg.valid = true) :
    s.advance.cfg.valid = true := by
  rw [(s.advance_spec hr.1 hr.2).host.2, hvalid]

/-- The control codes are distinct (`00_scope.md` R6): BEL is none of the four that have an adjustment, and CR none of
the three that are tested before it. -/
theorem bel_cr_ne_of_valid {g : Config} (h : g.valid = true) :
    (g.bel ≠ g.bs ∧ g.bel ≠ g.lf ∧ g.bel ≠ g.ff ∧ g.bel ≠ g.cr) ∧ g.cr ≠ g.bs ∧ g.cr ≠ g.lf ∧ g.cr ≠ g.ff := by
  obtain ⟨-, -, hcodes, -⟩ := (valid_iff g).1 h
  simp only [List.nodup_cons, List.mem_cons, not_or] at hcodes
  tauto

/-- Settles O46: BEL has no adjustment, which leaves the cursor where the generic advance put it. -/
theorem putcBellOnlyAdvances : Obligations.PutcBellOnlyAdvances := by
  intro s hinited hcol hrow hvalid
  have adv := s.advance_spec hcol hrow
  obtain ⟨⟨hbs, hlf, hff, hcr⟩, -⟩ := bel_cr_ne_of_valid (advance_valid ⟨hcol, hrow⟩ hvalid)
  exact exec_putc_of_cursor_adjustment Config.bel hinited ⟨hcol, hrow⟩ ((isControl_iff ..).2 (by simp))
    (State.adjust_none _ _ hbs hlf hff hcr) adv.col adv.row

/-- Settles O47: the backspace subtracts from the column of the generic advance, and its natural subtraction stops
at 0. -/
theorem putcBackspaceMovesBack : Obligations.PutcBackspaceMovesBack := by
  intro s hinited hcol hrow _
  have adv := s.advance_spec hcol hrow
  have hback : (backspaceCol s.advance.col).toNat = advCol s - 2 := by rw [backspaceCol_toNat, adv.col]
  exact exec_putc_of_cursor_adjustment Config.bs hinited ⟨hcol, hrow⟩ ((isControl_iff ..).2 (by simp))
    (State.adjust_bs _) hback adv.row

/-- Settles O48: the row of the generic advance is at most 24, so that one more does not carry. -/
theorem putcLineFeedAdvancesTheRowAgain : Obligations.PutcLineFeedAdvancesTheRowAgain := by
  intro s hinited hcol hrow hvalid
  have adv := s.advance_spec hcol hrow
  have hlt := advRow_lt hrow
  have hnext : (s.advance.row + 1#8).toNat = advRow s + 1 := by
    rw [← adv.row] at hlt ⊢
    exact BitVec.toNat_add_of_lt (show s.advance.row.toNat + 1 < 2 ^ 8 by omega)
  exact exec_putc_of_cursor_adjustment Config.lf hinited ⟨hcol, hrow⟩ ((isControl_iff ..).2 (by simp))
    (State.adjust_lf _ (lf_ne_bs_of_valid (advance_valid ⟨hcol, hrow⟩ hvalid))) rfl hnext

/-- Settles O49: the clear after the generic advance writes every cell and leaves the cursor. -/
theorem putcFormFeedClearsWithoutHoming : Obligations.PutcFormFeedClearsWithoutHoming := by
  intro s hinited hcol hrow hvalid
  have adv := s.advance_spec hcol hrow
  obtain ⟨hbs, hlf⟩ := ff_ne_of_valid (advance_valid ⟨hcol, hrow⟩ hvalid)
  have hadjust := s.advance.adjust_ff hbs hlf
  rw [adv.host.2] at hadjust
  have heffect := (effect_putc_of_control ((isControl_iff ..).2 (by simp))).trans hadjust
  have hblank : (s.advance.enter .adjust).blank = encodeCell s.cfg.space s.attr := by
    rw [State.blank, State.enter_cfg, State.enter_attr, adv.host.2, adv.attr]
  refine ⟨_, execPutc_runs _ hinited ⟨hcol, hrow⟩, ?_, ?_, fun i hi => ?_, putcFrame_effect _ ⟨hcol, hrow⟩⟩
  · exact (congrArg (·.col.toNat) heffect).trans adv.col
  · exact (congrArg (·.row.toNat) heffect).trans adv.row
  · exact (congrArg (·.cell i) heffect).trans ((State.clearGrid_cell _ i hi).trans hblank)

/-- Settles O50: the carriage return keeps the row of the generic advance. -/
theorem putcCarriageReturnForcesColumnZero : Obligations.PutcCarriageReturnForcesColumnZero := by
  intro s hinited hcol hrow hvalid
  have adv := s.advance_spec hcol hrow
  obtain ⟨-, hbs, hlf, hff⟩ := bel_cr_ne_of_valid (advance_valid ⟨hcol, hrow⟩ hvalid)
  exact exec_putc_of_cursor_adjustment Config.cr hinited ⟨hcol, hrow⟩ ((isControl_iff ..).2 (by simp))
    (State.adjust_cr _ hbs hlf hff) rfl adv.row

/-! ### Sequences of printed characters -/

/-- The cursor is at cell `k` of the grid (R140). -/
def State.CursorAt (s : State) (k : Nat) : Prop := s.col.toNat = k % 80 ∧ s.row.toNat = k / 80

theorem State.CursorAt.col_eq {s : State} {k : Nat} (h : s.CursorAt k) : s.col = BitVec.ofNat 8 (k % 80) := by
  obtain ⟨hcol, -⟩ := h
  rw [← hcol, BitVec.ofNat_toNat, BitVec.setWidth_eq]

theorem State.CursorAt.row_eq {s : State} {k : Nat} (h : s.CursorAt k) : s.row = BitVec.ofNat 8 (k / 80) := by
  obtain ⟨-, hrow⟩ := h
  rw [← hrow, BitVec.ofNat_toNat, BitVec.setWidth_eq]

theorem State.CursorAt.inRange {s : State} {k : Nat} (h : s.CursorAt k) (hk : k < 2000) :
    s.col.toNat < 80 ∧ s.row.toNat < 25 := by
  obtain ⟨hcol, hrow⟩ := h
  omega

theorem State.CursorAt.index_eq {s : State} {k : Nat} (h : s.CursorAt k) : s.row.toNat * 80 + s.col.toNat = k := by
  obtain ⟨hcol, hrow⟩ := h
  rw [hcol, hrow, Nat.div_add_mod']

theorem State.CursorAt.atLastCell_iff {s : State} {k : Nat} (h : s.CursorAt k) : AtLastCell s ↔ k = 1999 := by
  obtain ⟨hcol, hrow⟩ := h
  rw [AtLastCell, hcol, hrow]
  omega

/-- Before the last cell the generic advance goes to the next cell, at the end of a row too (R181). -/
theorem State.CursorAt.advance {s : State} {k : Nat} (h : s.CursorAt k) (hk : k < 1999) :
    advCol s = (k + 1) % 80 ∧ advRow s = (k + 1) / 80 := by
  obtain ⟨hcol, hrow⟩ := h
  rw [advCol, advRow, hcol, hrow]
  split_ifs <;> omega

/-- From the last cell the generic advance goes to the start of the last row, after the scroll (R181). -/
theorem advance_of_atLastCell {s : State} (h : AtLastCell s) : advCol s = 0 ∧ advRow s = 24 := by
  obtain ⟨hcol, hrow⟩ := h
  simp [advCol, advRow, hcol, hrow]

theorem State.CursorAt.placedCell {s : State} {k : Nat} (h : s.CursorAt k) (ch : Byte) (i : Nat) :
    s.placedCell ch i = if i = k then encodeCell ch s.attr else s.cell i := by
  rw [State.placedCell, h.index_eq]

/-- The cursor and the grid after an accepted PUTC of a printed character (R171 to R173). -/
theorem State.after_putc_printed {s : State} {ch : Byte} (commands : List Instr)
    (hr : s.col.toNat < 80 ∧ s.row.toNat < 25) (hch : s.cfg.isControl ch = false) :
    (s.after (.putc ch) commands).col.toNat = advCol s ∧ (s.after (.putc ch) commands).row.toNat = advRow s ∧
      GridAdvanced s (s.placedCell ch) (s.after (.putc ch) commands) :=
  effect_putc_printed (s := s.accept (commands.map encode)) hr hch

/-- What an accepted PUTC keeps (R179). -/
theorem State.after_putc_keeps {s : State} (ch : Byte) (commands : List Instr)
    (hr : s.col.toNat < 80 ∧ s.row.toNat < 25) :
    (s.after (.putc ch) commands).attr = s.attr ∧ KeepsStatus s (s.after (.putc ch) commands) ∧
      (s.after (.putc ch) commands).cfg = s.cfg ∧ KeepsOutsideGrid s (s.after (.putc ch) commands) := by
  obtain ⟨hattr, hstatus, ⟨-, hcfg⟩, houtside, -⟩ := putcFrame_effect (s := s.accept (commands.map encode)) ch hr
  exact ⟨hattr, hstatus, hcfg, houtside⟩

/-- `t` is what printing `text` from cell `k` of `s` leaves, where the last cell is not reached (R184). -/
structure PrintedFrom (k : Nat) (text : List Byte) (s t : State) : Prop where
  ready : t.cmdReady = true
  cursor : t.CursorAt (k + text.length)
  cell : ∀ i (h : i < text.length), t.cell (k + i) = encodeCell text[i] s.attr
  others : ∀ i < 2000, (i < k ∨ k + text.length ≤ i) → t.cell i = s.cell i
  attr : t.attr = s.attr
  status : KeepsStatus s t
  cfg : t.cfg = s.cfg
  outside : KeepsOutsideGrid s t

theorem PrintedFrom.refl {k : Nat} {s : State} (hready : s.cmdReady = true) (hcursor : s.CursorAt k) :
    PrintedFrom k [] s s :=
  ⟨hready, hcursor, nofun, fun _ _ _ => rfl, rfl, ⟨rfl, rfl, rfl⟩, rfl, fun _ _ => rfl⟩

theorem PrintedFrom.cons {k : Nat} {ch : Byte} {text : List Byte} {s t u : State} (h : PrintedFrom k [ch] s t)
    (h' : PrintedFrom (k + 1) text t u) (hk : k < 2000) : PrintedFrom k (ch :: text) s u where
  ready := h'.ready
  cursor := by simpa only [List.length_cons, Nat.add_assoc, Nat.add_comm 1] using h'.cursor
  cell
    | 0, _ => (h'.others k hk (.inl k.lt_succ_self)).trans (h.cell 0 Nat.one_pos)
    | i + 1, hi => by
      have hcell := h'.cell i (Nat.lt_of_succ_lt_succ hi)
      rwa [h.attr, Nat.add_assoc, Nat.add_comm 1] at hcell
  others i hi hout := by
    rw [List.length_cons] at hout
    rw [h'.others i hi (by omega), h.others i hi (by rw [List.length_singleton]; omega)]
  attr := h'.attr.trans h.attr
  status := h.status.trans h'.status
  cfg := h'.cfg.trans h.cfg
  outside := h.outside.trans h'.outside h.cfg

/-- What is on offer makes no difference to what has been printed. -/
theorem PrintedFrom.offering {k : Nat} {text : List Byte} {s t : State} (h : PrintedFrom k text s t)
    (ws : List CommandWord) : PrintedFrom k text s (t.offering ws) :=
  ⟨h.ready, h.cursor, h.cell, h.others, h.attr, h.status, h.cfg, h.outside⟩

/-- One printed character before the last cell (R171, R172). -/
theorem State.after_putc_printedFrom {s : State} {ch : Byte} {k : Nat} (commands : List Instr)
    (hready : s.cmdReady = true) (hinited : s.inited = true) (hcursor : s.CursorAt k) (hk : k < 1999)
    (hch : s.cfg.isControl ch = false) : PrintedFrom k [ch] s (s.after (.putc ch) commands) := by
  have hr := hcursor.inRange (by omega)
  obtain ⟨hcol, hrow, -, hstay⟩ := s.after_putc_printed commands hr hch
  obtain ⟨hattr, hstatus, hcfg, houtside⟩ := s.after_putc_keeps ch commands hr
  obtain ⟨hcol', hrow'⟩ := hcursor.advance hk
  have hcells := hstay (mt hcursor.atLastCell_iff.1 hk.ne)
  simp only [hcursor.placedCell] at hcells
  refine ⟨State.after_ready commands hready hinited rfl fun _ _ => hr, ⟨hcol.trans hcol', hrow.trans hrow'⟩,
    fun i hi => ?_, fun i hi hout => ?_, hattr, hstatus, hcfg, houtside⟩
  · obtain rfl := Nat.lt_one_iff.1 hi
    exact (hcells k (by omega)).trans (if_pos rfl)
  · rw [List.length_singleton] at hout
    rw [hcells i hi, if_neg (by omega)]

/-- Printing a text that ends before the last cell, with more commands on offer behind it: each character takes its
step, and the block is ready for the commands behind (R183, R184). -/
theorem State.issue_puts_append {text : List Byte} (commands : List Instr) {s : State} {k : Nat}
    (hready : s.cmdReady = true) (hinited : s.inited = true) (hcursor : s.CursorAt k)
    (hk : k + text.length ≤ 1999) (hch : ∀ ch ∈ text, s.cfg.isControl ch = false) :
    ∃ t, s.issue (puts text ++ commands) = t.issue commands ∧ PrintedFrom k text s t := by
  induction text generalizing s k with
  | nil => exact ⟨s, rfl, .refl hready hcursor⟩
  | cons ch text ih =>
    rw [List.length_cons] at hk
    obtain ⟨hhead, htail⟩ := List.forall_mem_cons.1 hch
    have hone := s.after_putc_printedFrom (puts text ++ commands) hready hinited hcursor (by omega) hhead
    obtain ⟨t, hissue, hrest⟩ := ih hone.ready (hone.status.1.trans hinited) hone.cursor
      (by rw [List.length_singleton]; omega) (by rwa [hone.cfg])
    have hstep := State.issue_cons_of_inited (i := .putc ch) (puts text ++ commands) hready hinited rfl
      fun _ _ => hcursor.inRange (by omega)
    exact ⟨t, hstep.trans hissue, hone.cons hrest (by omega)⟩

/-- Printing a text that ends before the last cell, with nothing on offer behind it. -/
theorem State.issue_puts {text : List Byte} {s : State} {k : Nat} (hready : s.cmdReady = true)
    (hinited : s.inited = true) (hcursor : s.CursorAt k) (hk : k + text.length ≤ 1999)
    (hch : ∀ ch ∈ text, s.cfg.isControl ch = false) :
    ∃ t, s.issue (puts text) = .next t ∧ PrintedFrom k text s t := by
  obtain ⟨t, hissue, hprinted⟩ := State.issue_puts_append [] hready hinited hcursor hk hch
  rw [List.append_nil, State.issue_nil] at hissue
  exact ⟨_, hissue, hprinted.offering []⟩

/-- Settles O53: the text printed from cell 0. -/
theorem printedCharactersFillTheGridInOrder : Obligations.PrintedCharactersFillTheGridInOrder := by
  intro text s hready hinited hcol hrow _ hch hlength
  have hcursor : s.CursorAt 0 := by rw [State.CursorAt, hcol, hrow]; decide
  obtain ⟨t, hissue, -, ⟨hcol', hrow'⟩, hcell, hothers, hattr, hstatus, -, houtside⟩ :=
    State.issue_puts hready hinited hcursor (by omega) hch
  simp only [Nat.zero_add] at hcol' hrow' hcell hothers
  exact ⟨t, hissue, hcol', hrow', hcell, fun i hi hlt => hothers i hlt (.inr hi), houtside, hstatus, hattr⟩

/-! ### The scroll after 2000 printed characters -/

/-- INIT issued to a ready block, with other commands behind it (R151). -/
theorem State.issue_init {s : State} (commands : List Instr) (hready : s.cmdReady = true) :
    s.issue (.init :: commands) = (s.after .init commands).issue commands :=
  State.issue_cons commands hready (decodeOfEncodeIsTheCommand .init) (exec_init _)

theorem State.after_init_ready {s : State} (commands : List Instr) (hready : s.cmdReady = true) :
    (s.after .init commands).cmdReady = true :=
  (cmdReady_iff _).2 ⟨((cmdReady_iff s).1 hready).1, rfl⟩

/-- `t` is what printing the 2000 characters of `text` from cell 0 of `s` leaves: they have moved up one row, and the
last row is blank (R185). -/
structure ScrolledOnce (text : List Byte) (s t : State) : Prop where
  ready : t.cmdReady = true
  inited : t.inited = true
  cursor : t.CursorAt 1920
  cell : ∀ i (h : i + 80 < text.length), t.cell i = encodeCell text[i + 80] s.attr
  blank : ∀ i, 1920 ≤ i → i < 2000 → t.cell i = encodeCell s.cfg.space s.attr
  attr : t.attr = s.attr
  cfg : t.cfg = s.cfg

/-- Before the scroll the placement of the 2000th character has completed the text in the grid (R171). -/
theorem PrintedFrom.placedCell {front : List Byte} {s t : State} (h : PrintedFrom 0 front s t)
    (hcursor : t.CursorAt front.length) (last : Byte) {i : Nat} (hi : i < (front ++ [last]).length) :
    t.placedCell last i = encodeCell (front ++ [last])[i] s.attr := by
  rw [hcursor.placedCell]
  split_ifs with hend
  · simp [hend, h.attr]
  · rw [List.length_append, List.length_singleton] at hi
    have hfront : i < front.length := by omega
    have hcell := h.cell i hfront
    rwa [Nat.zero_add, ← List.getElem_append_left hfront] at hcell

/-- The 2000th printed character scrolls (R173). -/
theorem PrintedFrom.scrolledOnce {front : List Byte} {last : Byte} {s t : State} (h : PrintedFrom 0 front s t)
    (hinited : t.inited = true) (hlength : front.length = 1999) (hlast : t.cfg.isControl last = false) :
    ScrolledOnce (front ++ [last]) s (t.after (.putc last) []) := by
  have hcursor : t.CursorAt front.length := by simpa only [Nat.zero_add] using h.cursor
  have hr := hcursor.inRange (by omega)
  have hatLast := hcursor.atLastCell_iff.2 hlength
  obtain ⟨hcol, hrow, hscroll, -⟩ := t.after_putc_printed [] hr hlast
  obtain ⟨hcol', hrow'⟩ := advance_of_atLastCell hatLast
  obtain ⟨hup, hblank⟩ := hscroll hatLast
  obtain ⟨hattr, -, hcfg, -⟩ := t.after_putc_keeps last [] hr
  refine ⟨State.after_ready [] h.ready hinited rfl fun _ _ => hr,
    State.after_inited [] hinited rfl fun _ _ => hr, ⟨hcol.trans hcol', hrow.trans hrow'⟩, fun i hi => ?_,
    fun i hi hlt => ?_, hattr.trans h.attr, hcfg.trans h.cfg⟩
  · have hup' := hup i (by rw [List.length_append, List.length_singleton] at hi; omega)
    exact hup'.trans (h.placedCell hcursor last hi)
  · have hcell := hblank (i - 1920) (by omega)
    rw [Nat.add_sub_cancel' hi] at hcell
    rw [hcell, State.blank, h.cfg, h.attr]

/-- Printing 2000 characters from cell 0: all but the last fill the grid up to the last cell. -/
theorem State.issue_puts_scrolledOnce {text : List Byte} {s : State} (hready : s.cmdReady = true)
    (hinited : s.inited = true) (hcursor : s.CursorAt 0) (hlength : text.length = 2000)
    (hch : ∀ ch ∈ text, s.cfg.isControl ch = false) :
    ∃ t, s.issue (puts text) = .next t ∧ ScrolledOnce text s t := by
  obtain ⟨front, last, rfl⟩ := (List.eq_nil_or_concat' text).resolve_left (by rintro rfl; cases hlength)
  obtain ⟨hfront, hlast⟩ := List.forall_mem_append.1 hch
  rw [List.length_append, List.length_singleton] at hlength
  have hputs : puts (front ++ [last]) = puts front ++ [.putc last] := List.map_append
  obtain ⟨t, hissue, hprinted⟩ := State.issue_puts_append [.putc last] hready hinited hcursor (by omega) hfront
  have hinited' : t.inited = true := hprinted.status.1.trans hinited
  have hscroll := State.issue_one (i := .putc last) hprinted.ready hinited' rfl
    fun _ _ => hprinted.cursor.inRange (by omega)
  refine ⟨_, ?_, hprinted.scrolledOnce hinited' (by omega) ?_⟩
  · rw [hputs, hissue, hscroll]
  · rw [hprinted.cfg]
    exact hlast last (List.mem_singleton_self last)

/-- Settles O54: after INIT the 2000 characters scroll once, and one more is printed at cell 1920. -/
theorem twoThousandPrintedCharactersScrollOnce : Obligations.TwoThousandPrintedCharactersScrollOnce := by
  intro text s hready _ hch hlength
  have hinit := State.issue_init (puts text) hready
  obtain ⟨t, hissue, ht⟩ := State.issue_puts_scrolledOnce (State.after_init_ready (puts text) hready) rfl
    ⟨rfl, rfl⟩ hlength hch
  refine ⟨t, hinit.trans hissue, ((cmdReady_iff t).1 ht.ready).1, ht.cursor.col_eq, ht.cursor.row_eq, ht.cell,
    ht.blank, fun ch hch' => ?_⟩
  obtain ⟨u, hissue', hu⟩ := State.issue_puts (text := [ch]) ht.ready ht.inited ht.cursor
    (by rw [List.length_singleton]; decide) (by rw [ht.cfg]; exact List.forall_mem_singleton.2 hch')
  have hcursor : u.CursorAt 1921 := hu.cursor
  refine ⟨u, hissue', ((cmdReady_iff u).1 hu.ready).1, hcursor.col_eq, hcursor.row_eq, fun i hi => ?_⟩
  split_ifs with hi'
  · have hattr : t.attr = 0x07#8 := ht.attr
    rw [hi', hu.cell 0 Nat.one_pos, hattr]
    rfl
  · exact hu.others i hi (by rw [List.length_singleton]; omega)

end Sys2Proof.Machine
end

section
/-! The statements about faults (`60_exceptions.md`): which check of a command fails and with which code, the order of
the checks, the fault latch, and the block with no command on offer. -/

namespace Sys2Proof.Machine

/-! ### Which commands fault -/

/-- A command that passes its checks completes, whether or not it needs INITED = 1. -/
theorem exec_completes_of_checked {i : Instr} {s t : State} (hi : needsInited i = true → s.inited = true)
    (hr : CursorChecked i s) (h : exec i s = .next t) : ∃ v, t = (effect i s).complete v := by
  by_cases hneeds : needsInited i = true
  · rw [exec_of_inited (hi hneeds) hneeds hr] at h
    cases h
    exact ⟨_, rfl⟩
  · rcases exec_endsIn h with ⟨hneeds', -⟩ | ⟨-, hcomplete⟩
    · exact absurd hneeds' hneeds
    · exact hcomplete

/-- A command that completes keeps FAULT and FCODE. -/
theorem exec_keeps_latch_of_complete {i : Instr} {s u : State} {v : CellValue}
    (h : exec i s = .next (u.complete v)) : (u.complete v).fault = s.fault ∧ (u.complete v).fcode = s.fcode := by
  rcases exec_next_cases h with ⟨c, hraise⟩ | ⟨u', v', hu, hfault, hfcode, -⟩
  · cases congrArg State.rsp hraise
  · rw [hu]
    exact ⟨hfault, hfcode⟩

/-- What the two checks of R203 make of a command that takes a step: NotInitialised, CursorOutOfRange, or neither, and
then FAULT and FCODE stay. -/
theorem exec_next_checks {i : Instr} {s t : State} (h : exec i s = .next t) :
    (needsInited i = true ∧ s.inited = false ∧ t = s.raise .notInitialised) ∨
    ((∃ ch, i = .putc ch) ∧ s.inited = true ∧ ¬ (s.col.toNat < 80 ∧ s.row.toNat < 25) ∧
      t = s.raise .cursorOutOfRange) ∨
    ((needsInited i = true → s.inited = true) ∧ CursorChecked i s ∧ t.fault = s.fault ∧ t.fcode = s.fcode) := by
  by_cases hi : needsInited i = true → s.inited = true
  · by_cases hr : CursorChecked i s
    · obtain ⟨v, rfl⟩ := exec_completes_of_checked hi hr h
      exact .inr (.inr ⟨hi, hr, exec_keeps_latch_of_complete h⟩)
    · simp only [CursorChecked, not_forall] at hr
      obtain ⟨ch, rfl, hrange⟩ := hr
      rw [exec_putc_of_not_inRange ch (hi rfl) hrange] at h
      cases h
      exact .inr (.inl ⟨⟨ch, rfl⟩, hi rfl, hrange, rfl⟩)
  · obtain ⟨hneeds, hs⟩ := Classical.not_imp.1 hi
    rw [Bool.not_eq_true] at hs
    rw [exec_of_not_inited hs hneeds] at h
    cases h
    exact .inl ⟨hneeds, hs, rfl⟩

/-- Settles O12: INITED tells the two failing checks apart, and where both pass FAULT and FCODE are still 0. -/
theorem commandsFaultExactlyAsListed : Obligations.CommandsFaultExactlyAsListed := by
  intro i s t hfault hfcode h
  rcases exec_next_checks h with ⟨hneeds, hs, rfl⟩ | ⟨hputc, hs, hrange, rfl⟩ | ⟨hi, hr, hfault', hfcode'⟩
  · exact ⟨⟨fun _ => .inl ⟨hneeds, hs⟩, fun _ => rfl⟩, fun _ _ => rfl,
      fun _ hs' => absurd (hs.symm.trans hs') nofun, nofun⟩
  · exact ⟨⟨fun _ => .inr ⟨hputc, hs, hrange⟩, fun _ => rfl⟩, fun _ hs' => absurd (hs'.symm.trans hs) nofun,
      fun _ _ => rfl, nofun⟩
  · have hnone : t.fault ≠ true := by simp [hfault', hfault]
    refine ⟨⟨fun ht => absurd ht hnone, ?_⟩, fun ht => absurd ht hnone, fun ht => absurd ht hnone,
      fun _ => hfcode'.trans hfcode⟩
    rintro (⟨hneeds, hs⟩ | ⟨⟨ch, hputc⟩, -, hrange⟩)
    · exact absurd (hs.symm.trans (hi hneeds)) nofun
    · exact absurd (hr ch hputc) hrange

/-! ### The order of the checks -/

/-- Decode comes before every other check (R205). -/
theorem step_of_illegal {s : State} {w : CommandWord} {rest : List CommandWord} {why : Illegal}
    (hready : s.cmdReady = true) (hcmds : s.cmds = w :: rest) (hwhy : decode w = .illegal why) :
    step s = .next ((s.accept rest).raise .illegalCommand) := by
  rw [step_of_ready hready hcmds, runWord, hwhy, takeFault]

/-- Settles O13: each check raises from the state it is made in, and looks at nothing a later one does. -/
theorem faultChecksComeInOrder : Obligations.FaultChecksComeInOrder :=
  ⟨fun _ _ _ _ hready hcmds hwhy => ⟨_, step_of_illegal hready hcmds hwhy, raisedFrom_raise _ _⟩,
    fun _ _ hneeds hs => exec_raises_of_not_inited hs hneeds,
    fun _ ch hs hrange => ⟨_, exec_putc_of_not_inRange ch hs hrange, raisedFrom_raise _ _⟩⟩

/-! ### The idle block and the fault latch -/

/-- A ready block with no command on offer only ends its last completion event (R212). -/
theorem step_of_no_command {s : State} (hready : s.cmdReady = true) (hcmds : s.cmds = []) :
    step s = .next s.beginStep := by
  obtain ⟨hfault, hphase⟩ := (cmdReady_iff s).1 hready
  rw [step, if_neg (by simp [hfault]), if_neg (by simp [(busy_eq_false_iff s).2 hphase]), hcmds]

/-- Settles O9: the start of a step empties the records of the step before, and no more. -/
theorem idleBlockStaysAsItIs : Obligations.IdleBlockStaysAsItIs :=
  fun s hready hcmds => ⟨_, step_of_no_command hready hcmds, rfl, rfl, rfl, ⟨rfl, rfl, rfl⟩, ⟨rfl, rfl, rfl⟩,
    ⟨rfl, rfl⟩, s.beginStep_byte⟩

/-- Settles O11: the raise sets the latch, which stops every step, and neither event writes it. -/
theorem raiseChangesOnlyTheFaultLatch : Obligations.RaiseChangesOnlyTheFaultLatch := by
  intro c s
  have hstuck : step (s.raise c) = .fault .blockFaulted := step_of_fault rfl
  have hnoStep (u : State) : step (s.raise c) ≠ .next u := by simp [hstuck]
  exact ⟨s.raise c, rfl, raisedFrom_raise c s, hnoStep, fun _ => ⟨rfl, rfl⟩, fun _ _ => ⟨rfl, rfl⟩⟩

end Sys2Proof.Machine
end

section
/-! The statements about the reset input (`70_reset_and_hazards.md`): at idle, during a command that takes a step, and
during a COPY that is stuck outside MemMap. -/

namespace Sys2Proof.Machine

/-! ### Reset at idle -/

/-- STATUS reads 0 after a reset (`10_state.md` R29, R35). -/
theorem State.resetInput_status (s : State) (col row attr : Byte) : (s.resetInput col row attr).status = 0x00#8 := by
  rw [State.status, State.busy, State.resetInput_fcode, State.resetInput_fault, State.resetInput_inited,
    State.resetInput_phase]
  rfl

/-- Settles O55: the reset writes the status fields and empties the records, and leaves the rest as it is. -/
theorem resetLeavesTheBlockReady : Obligations.ResetLeavesTheBlockReady := by
  obtain ⟨-, hstatus⟩ := statusRegisterLayout
  exact ⟨fun s col row attr => ⟨rfl, rfl, rfl, rfl, s.resetInput_status col row attr, rfl, rfl, fun _ => rfl,
    ⟨rfl, rfl⟩⟩, rfl, rfl, rfl, rfl, hstatus, rfl⟩

/-! ### The first turns of a loop -/

theorem replay_append (xs ys : List Access) (m : Memory) : replay (xs ++ ys) m = replay ys (replay xs m) :=
  List.foldl_append

/-- Reads leave `Mem` as it is (`20_memory.md` R57). -/
theorem replay_of_reads {xs : List Access} (h : ∀ x ∈ xs, x.dir = .read) (m : Memory) : replay xs m = m := by
  induction xs with
  | nil => rfl
  | cons x xs ih =>
    obtain ⟨hx, hxs⟩ := List.forall_mem_cons.1 h
    have happly : x.apply m = m := by rw [Access.apply, hx]
    exact (congrArg (replay xs) happly).trans (ih hxs)

/-- The port's record of a loop begins with the accesses of its first `m` turns, which account for what those turns
leave in `Mem`. -/
theorem forUp_log_split {body : Nat → MemPort → MemPort} {as : Nat → List Action}
    (h : ∀ i p, Made p (body i p) (as i)) (m r : Nat) {p : MemPort} (hp : p.log = []) :
    ∃ made later : List Access, (forUp body (m + r) p).log.reverse = made ++ later ∧
      made.map Access.action = (List.range m).flatMap as ∧
      later.map Access.action = (List.range' m r).flatMap as ∧
      replay made p.mem = (forUp body m p).mem := by
  obtain ⟨made, hlog, hmem, hmade⟩ := Made.forUp body as h m p
  obtain ⟨later, hlog', -, hlater⟩ := Made.forUp_tail body as h m r p
  exact ⟨made, later, by simp [hlog', hlog, hp], hmade, hlater, hmem.symm⟩

/-- After its first `k` accesses a fill has written its first `k` cells, or all of them when it has fewer. -/
theorem MemPort.replay_take_fillCells {p : MemPort} (hp : p.log = []) (g : Config) (v : CellValue)
    (first count k : Nat) :
    replay ((p.fillCells g v first count).log.reverse.take k) p.mem =
      (p.fillCells g v first (min k count)).mem := by
  obtain ⟨made, later, hlog, hmade, hlater, hmem⟩ := forUp_log_split
    (fun j q => Made.writeCell q (g.cellAddrOf (first + j)) v) (min k count) (count - min k count) hp
  rw [Nat.add_sub_cancel' (Nat.min_le_right k count)] at hlog
  have hmadeLength : made.length = min k count := by simpa using congrArg List.length hmade
  have hlaterLength : later.length = count - min k count := by simpa using congrArg List.length hlater
  have htake : (made ++ later).take k = made := by
    rw [List.take_eq_take_min, List.length_append, hmadeLength, hlaterLength,
      Nat.add_sub_cancel' (Nat.min_le_right k count), List.take_left' hmadeLength]
  rw [MemPort.fillCells, hlog, htake, hmem, MemPort.fillCells]

/-! ### The abandoned command -/

/-- A ready block runs the command whose word is on offer (`30_encoding.md` R89, R90). -/
theorem step_of_encoded {s : State} {i : Instr} {rest : List CommandWord} (hready : s.cmdReady = true)
    (hcmds : s.cmds = encode i :: rest) : step s = exec i (s.accept rest) := by
  rw [step_of_ready hready hcmds, runWord, decodeOfEncodeIsTheCommand]

theorem State.abandon_byte {s : State} {made : List Access} {q : MemPort} (h : replay made s.port.mem = q.mem)
    (rest : List CommandWord) (col row attr : Byte) (a : Addr) :
    (s.abandon made rest col row attr).byte a = q.byte a :=
  congrArg (Memory.read · a.toNat) h

/-- A step that takes a word leaves the words after it on offer. -/
theorem step_cmds {s t : State} {w : CommandWord} {rest : List CommandWord} (hcmds : s.cmds = w :: rest)
    (h : step s = .next t) : t.cmds = rest := by
  obtain ⟨-, ⟨hnone, -⟩ | ⟨w', rest', hcmds', htaken⟩⟩ := step_next_cases h
  · cases hnone.symm.trans hcmds
  · cases hcmds'.symm.trans hcmds
    rcases htaken with ⟨i, -, hexec⟩ | ⟨why, -, rfl⟩
    · exact (exec_keepsHost hexec).1
    · rfl

/-- A ready block with a word on offer takes a step, or is stuck outside MemMap. -/
theorem step_answers {s : State} {w : CommandWord} {rest : List CommandWord} (hready : s.cmdReady = true)
    (hcmds : s.cmds = w :: rest) : (∃ t, step s = .next t) ∨ step s = .fault .unbackedAccess := by
  rw [step_of_ready hready hcmds, runWord]
  cases decode w with
  | legal i => exact exec_answers i _
  | illegal why => exact .inl ⟨_, rfl⟩

/-- A reset during a command abandons it, with the first `k` accesses made where the command takes a step (R221). -/
theorem State.resetDuring_of_ready {s : State} {w : CommandWord} {rest : List CommandWord}
    (hready : s.cmdReady = true) (hcmds : s.cmds = w :: rest) (k : Nat) (col row attr : Byte) :
    ∃ made, s.resetDuring k col row attr = s.abandon made rest col row attr ∧
      ∀ t, step s = .next t → made = t.port.log.reverse.take k := by
  rcases step_answers hready hcmds with ⟨t, hstep⟩ | hstuck
  · refine ⟨t.port.log.reverse.take k, ?_, fun u hu => ?_⟩
    · rw [State.resetDuring_of_next hstep, step_cmds hcmds hstep]
    · cases hstep.symm.trans hu
      rfl
  · refine ⟨s.backedAccesses.take k, ?_, fun u hu => ?_⟩
    · rw [State.resetDuring_of_unbacked hstuck, hcmds, List.tail_cons]
    · cases hstuck.symm.trans hu

/-! ### Reset during CLEAR -/

/-- A cell of a grid whose first `m` cells were filled. -/
theorem State.cell_of_filled {s t : State} {v : CellValue} {m : Nat}
    (hbyte : ∀ a, t.byte a = (s.port.fillCells s.cfg v 0 m).byte a) (hcfg : t.cfg = s.cfg) (hm : m ≤ 2000)
    {i : Nat} (hi : i < 2000) :
    t.cell i = if i < m then v else s.cell i := by
  have hlow := (hbyte (s.cfg.cellAddrOf i)).trans (MemPort.byte_fillCells _ _ _ _ _ (by omega) _)
  have hhigh := (hbyte (s.cfg.cellAddrOf i + 1#32)).trans (MemPort.byte_fillCells _ _ _ _ _ (by omega) _)
  rw [toNat_cellAddrOf_sub _ _ hi] at hlow
  rw [toNat_cellAddrOf_succ_sub _ _ hi] at hhigh
  split_ifs with him
  · rw [if_pos (by omega), Nat.mul_mod_right] at hlow
    rw [if_pos (by omega), Nat.mul_add_mod] at hhigh
    exact State.cell_of_bytes (hcfg ▸ hlow) (hcfg ▸ hhigh)
  · rw [if_neg (by omega)] at hlow hhigh
    exact State.cell_congr (hcfg ▸ hlow) (hcfg ▸ hhigh)

/-- Settles O56: the accesses CLEAR has made are the first of its cell writes, in their order. -/
theorem resetDuringClearLeavesAPartlyClearedGrid : Obligations.ResetDuringClearLeavesAPartlyClearedGrid := by
  intro s rest k col row attr hready hcmds hinited
  have hexec := exec_of_inited (i := .clear) (s := s.accept rest) hinited rfl (.of_ne_putc nofun)
  have hstep := (step_of_encoded hready hcmds).trans hexec
  rw [State.resetDuring_of_next hstep]
  have hmem := MemPort.replay_take_fillCells (p := (s.accept rest).port) rfl s.cfg s.blank 0 2000 k
  have hbyte := State.abandon_byte (s := s) hmem rest col row attr
  refine ⟨fun i hi => ?_, fun a ha => ?_, rfl, rfl, rfl⟩
  · have hcell := State.cell_of_filled (s := s.accept rest) hbyte rfl (Nat.min_le_right k 2000) hi
    refine hcell.trans (if_congr ?_ rfl rfl)
    omega
  · have ha' : ¬ (a - s.cfg.gridBase).toNat < 4000 := ha
    refine (hbyte a).trans ((MemPort.byte_fillCells _ _ _ _ _ (by omega) a).trans (if_neg ?_))
    omega

/-! ### Reset during a stuck COPY -/

/-- The accesses that a COPY makes before its first that leaves MemMap are those of COPY's loop on the same port, up
to that one (`20_memory.md` R52). -/
theorem State.backedAccesses_copy {s : State} {rest : List CommandWord} {dst src n : Addr}
    (hready : s.cmdReady = true) (hcmds : s.cmds = encode (.copy dst src n) :: rest) :
    s.backedAccesses = ((s.accept rest).port.copyUp dst src n.toNat).log.reverse.takeWhile
      (fun x => s.cfg.backs x.addr x.width.bytes) := by
  have hmapped (a : Addr) (m : Nat) : RegionMapped (s.onFullMemMap.accept rest).cfg a m := fun _ _ => rfl
  have hexec := runMover_of_mapped (·.copyUp dst src n.toNat) (hmapped src n.toNat) (hmapped dst n.toNat)
  rw [State.backedAccesses, (step_of_encoded (s := s.onFullMemMap) hready hcmds).trans hexec]
  rfl

/-- Accesses whose bytes are all in MemMap are backed. -/
theorem ActionsMapped.backs {g : Config} {xs : List Access} (h : ActionsMapped g (xs.map Access.action))
    {x : Access} (hx : x ∈ xs) : g.backs x.addr x.width.bytes = true :=
  (backs_iff_mapped _ _ _ (by have := x.width.bytes_le; omega)).2 (h x.action (List.mem_map_of_mem hx))

theorem backs_of_byte_action {g : Config} {x : Access} {d : Direction} {a : Addr} (h : x.action = (d, a, .byte)) :
    g.backs x.addr x.width.bytes = g.mapped a := by
  cases x
  cases h
  exact backs_one ..

/-- Of a byte's transfer that leaves MemMap at most the read is made. -/
theorem takeWhile_backs_transfer {g : Config} {dst src : Addr} {i : Nat} {later : List Access} {as : List Action}
    (hlater : later.map Access.action = transferActions dst src .byte i ++ as)
    (hstuck : ¬ (g.mapped (src + BitVec.ofNat 32 i) = true ∧ g.mapped (dst + BitVec.ofNat 32 i) = true)) :
    ∀ x ∈ later.takeWhile (fun x => g.backs x.addr x.width.bytes), x.dir = .read := by
  obtain ⟨rd, later, rfl, hread, hlater⟩ := List.map_eq_cons_iff.1 hlater
  obtain ⟨wr, later, rfl, hwrite, -⟩ := List.map_eq_cons_iff.1 hlater
  intro x hx
  rw [List.takeWhile_cons, List.takeWhile_cons, backs_of_byte_action hread, backs_of_byte_action hwrite] at hx
  split_ifs at hx with hsrc hdst
  · exact absurd ⟨hsrc, hdst⟩ hstuck
  · rw [List.mem_singleton.1 hx]
    exact congrArg Prod.fst hread
  · cases hx

section StuckCopy

variable {s : State} {rest : List CommandWord} {dst src n : Addr} {m : Nat} (hready : s.cmdReady = true)
  (hcmds : s.cmds = encode (.copy dst src n) :: rest) (hm : m < n.toNat)
  (hstuck : ¬ (s.cfg.mapped (src + BitVec.ofNat 32 m) = true ∧ s.cfg.mapped (dst + BitVec.ofNat 32 m) = true))
include hready hcmds hm hstuck

/-- A COPY with a byte outside MemMap has no step (`20_memory.md` R52). -/
theorem step_of_stuck_copy : step s = .fault .unbackedAccess :=
  (step_of_encoded hready hcmds).trans
    (runMover_of_not_mapped _ fun ⟨hsrc, hdst⟩ => hstuck ⟨hsrc m hm, hdst m hm⟩)

/-- A COPY that is stuck at byte `m` leaves what the first `m` turns of its loop do. -/
theorem State.replay_backedAccesses_copy (hsrc : RegionMapped s.cfg src m) (hdst : RegionMapped s.cfg dst m)
    {k : Nat} (hk : 2 * m ≤ k) :
    replay (s.backedAccesses.take k) s.port.mem = ((s.accept rest).port.copyUp dst src m).mem := by
  obtain ⟨r, hr⟩ : ∃ r, n.toNat = m + (r + 1) := ⟨n.toNat - m - 1, by omega⟩
  obtain ⟨made, later, hlog, hmade, hlater, hmem⟩ := forUp_log_split (p := (s.accept rest).port)
    (fun i q => Made.transfer q (dst + BitVec.ofNat 32 i) (src + BitVec.ofNat 32 i) .byte) m (r + 1) rfl
  have hlength : made.length = 2 * m := by simpa [Nat.mul_comm] using congrArg List.length hmade
  have hbacked : ∀ x ∈ made, s.cfg.backs x.addr x.width.bytes = true := fun _ hx =>
    ActionsMapped.backs (hmade ▸ upActions_mapped hsrc hdst) hx
  have hreads := takeWhile_backs_transfer (hlater.trans (by rw [List.range'_succ, List.flatMap_cons]; rfl)) hstuck
  have hsplit := (State.backedAccesses_copy hready hcmds).trans (congrArg (List.takeWhile _) (hr ▸ hlog))
  rw [hsplit, List.takeWhile_append_of_pos hbacked, List.take_append, List.take_of_length_le (by omega),
    replay_append, replay_of_reads fun x hx => hreads x (List.mem_of_mem_take hx)]
  exact hmem

end StuckCopy

/-- Settles O57: the reset abandons the word on offer whether or not it takes a step, and a stuck COPY has run the
turns of its loop before the one that leaves MemMap. -/
theorem resetAbandonsTheCommandInProgress : Obligations.ResetAbandonsTheCommandInProgress := by
  refine ⟨fun s w rest k col row attr hready hcmds => ?_, fun s rest dst src n m k col row attr hready hcmds hm hsrc
    hdst hstuck hoverlap hk => ?_⟩
  · obtain ⟨made, hreset, hmade⟩ := State.resetDuring_of_ready hready hcmds k col row attr
    rw [hreset]
    exact ⟨rfl, rfl, rfl, rfl, rfl, rfl, rfl, fun t ht => congrArg (replay · s.port.mem) (hmade t ht)⟩
  · rw [State.resetDuring_of_unbacked (step_of_stuck_copy hready hcmds hm hstuck)]
    have hmem := State.replay_backedAccesses_copy hready hcmds hm hstuck hsrc hdst hk
    have hbyte := State.abandon_byte hmem s.cmds.tail col row attr
    have hlt : m ≤ 2 ^ 32 := (hm.trans n.isLt).le
    have hcopied := MemPort.byte_copyUp (s.accept rest).port dst src m hlt
    refine ⟨fun i hi => ?_, fun a ha => (hbyte a).trans (hcopied.outside a ha)⟩
    exact (hbyte _).trans ((hcopied.byte_dst hlt hi).trans (by rw [if_neg hoverlap]; rfl))

end Sys2Proof.Machine
end
